-- ==== Sys2Proof/Word.lean ====
section
/-! DEFINITION. The words of `ALU8`: the widths of its ports and of the two vector notations. Bit `i` has weight `2^i`,
bit 7 of a byte is its sign bit (spec/00_scope.md R8, spec/20_memory.md R31). -/

namespace Sys2Proof

/-- An operand or a result, 8 bits (spec/00_scope.md R6). -/
abbrev Byte := BitVec 8

/-- A selector code, 3 bits (spec/30_encoding.md R42). -/
abbrev Selector := BitVec 3

/-- The input vector `IN[18:0] = {op, a, b}` (spec/10_state.md R23). -/
abbrev InVec := BitVec 19

/-- The output vector `OUT[11:0] = {V, N, C, Z, result}` (spec/10_state.md R23). -/
abbrev OutVec := BitVec 12

end Sys2Proof
end

