-- ==== Sys2Proof/Config.lean ====
section
/-! DEFINITION. The parameters of spec/00_scope.md R7 and the seven operation names every semantic rule is stated over.
The numbering of the operations is a table of its own, `Config.SEL` in Sys2Proof/Decode.lean. -/

namespace Sys2Proof

/-- D0's `Operation`, "a closed enumeration of 7 variants" (spec/30_encoding.md R41), in the spec's listing order. -/
inductive Operation where
  | add
  | subtract
  | bitwiseAnd
  | bitwiseOr
  | bitwiseXor
  | shiftLeftLogical
  | shiftRightLogical
  deriving DecidableEq, Repr

/-- The seven operations in the order of spec/30_encoding.md R43. -/
def Operation.all : List Operation :=
  [.add, .subtract, .bitwiseAnd, .bitwiseOr, .bitwiseXor, .shiftLeftLogical, .shiftRightLogical]

namespace Config

/-- Operand and result width. -/
abbrev WIDTH : Nat := 8

/-- Number of flags. -/
abbrev NFLAGS : Nat := 4

/-- Number of operations. -/
abbrev NOPS : Nat := 7

/-- Width of the `op` port. -/
abbrev SELW : Nat := 3

/-- Shift distance of both shifts, a constant that is not taken from `b`. -/
abbrev SHAMT : Nat := 1

/-- Intermediate precision of add, subtract and shift-left. The spec asks for at least 9 bits and says that no larger
value gives other outputs (spec/40_evaluation.md R62). -/
abbrev IPREC : Nat := 9

/-- The settling delay `T_PD`, which the spec leaves open and no rule reads (spec/70_reset_and_hazards.md R121; log
entry 9). It has no body, so nothing can be proved of its value. -/
opaque T_PD : Nat

end Config

end Sys2Proof
end

