-- ==== Sys2Proof/Syntax.lean ====
section
/-! DEFINITION. The instructions: one constructor per row of spec/opcode_table.json. One format serves all of them
(spec/30_encoding.md R40): every evaluation request carries `a` and `b`, also where the operation ignores them. -/

namespace Sys2Proof

/-- An evaluation request with its selector decoded. -/
inductive Instr where
  /-- `ADD` (spec/41_arithmetic.md R65). -/
  | add (a b : Byte)
  /-- `SUB` (spec/41_arithmetic.md R67). -/
  | sub (a b : Byte)
  /-- `AND` (spec/42_logic.md R80). -/
  | and (a b : Byte)
  /-- `OR` (spec/42_logic.md R81). -/
  | or (a b : Byte)
  /-- `XOR` (spec/42_logic.md R82). -/
  | xor (a b : Byte)
  /-- `SLL` (spec/43_shift.md R90). -/
  | sll (a b : Byte)
  /-- `SRL` (spec/43_shift.md R91). -/
  | srl (a b : Byte)
  /-- `RSV7`, the selector code that names no operation (spec/40_evaluation.md R59). -/
  | rsv7 (a b : Byte)
  deriving DecidableEq, Repr

/-- Operand A of a request. -/
def Instr.operandA : Instr → Byte
  | .add a _ => a
  | .sub a _ => a
  | .and a _ => a
  | .or a _ => a
  | .xor a _ => a
  | .sll a _ => a
  | .srl a _ => a
  | .rsv7 a _ => a

/-- Operand B of a request. -/
def Instr.operandB : Instr → Byte
  | .add _ b => b
  | .sub _ b => b
  | .and _ b => b
  | .or _ b => b
  | .xor _ b => b
  | .sll _ b => b
  | .srl _ b => b
  | .rsv7 _ b => b

/-- The operation of a request, none for the reserved selector code (spec/30_encoding.md R44). -/
def Instr.operation : Instr → Option Operation
  | .add _ _ => some .add
  | .sub _ _ => some .subtract
  | .and _ _ => some .bitwiseAnd
  | .or _ _ => some .bitwiseOr
  | .xor _ _ => some .bitwiseXor
  | .sll _ _ => some .shiftLeftLogical
  | .srl _ _ => some .shiftRightLogical
  | .rsv7 _ _ => none

end Sys2Proof
end

