-- ==== Sys2Proof/WellFormed.lean ====
section
/-! DEFINITION. What may be asked of the block. A caller writes a request as three numbers; it is well formed where each
fits its port (spec/00_scope.md R6, spec/10_state.md R11 to R13). Once the numbers are port values nothing is left to
check: every value of `a`, `b` and `op` is legal (spec/10_state.md R11, R12, R13; spec/30_encoding.md R51). -/

namespace Sys2Proof

/-- A request as three numbers, before it is put on the ports (`evaluate(a, b, op)`, spec/30_encoding.md R40). -/
structure Request where
  op : Nat
  a : Nat
  b : Nat
  deriving DecidableEq, Repr

/-- "An 8-bit unsigned value, 0–255" (spec/00_scope.md R6). -/
def operandFits (n : Nat) : Bool := decide (n < 2 ^ Config.WIDTH)

/-- "All 8 values of `op` are accepted" (spec/10_state.md R13). -/
def selectorFits (n : Nat) : Bool := decide (n < 2 ^ Config.SELW)

/-- Each number fits its port. -/
def Request.wellFormed (r : Request) : Bool := selectorFits r.op && operandFits r.a && operandFits r.b

/-- An instruction's operands fit their ports. The operand type holds no other value, so this is true of every
instruction (`Sys2Proof.Laws.Instr.wellFormed_all`). -/
def Instr.wellFormed (i : Instr) : Bool := operandFits i.operandA.toNat && operandFits i.operandB.toNat

end Sys2Proof
end

