-- ==== Sys2Proof/Decode.lean ====
section
/-! DEFINITION. The selector numbering, the decoder (total on input vectors, rejecting by name byte strings that are no
input vector) and the encoder, both written for ANY numbering of the operations (spec/00_scope.md R7, spec/30_encoding.md
R43: "a model can take this table as a configuration value") and then taken at the spec's own. -/

namespace Sys2Proof

/-- `SEL`: the selector codes of spec/30_encoding.md R43. The spec chose them (spec/92_eei_decisions.md D4; log entry 6). -/
def Config.SEL : Operation → Selector
  | .add => 0b000#3
  | .subtract => 0b001#3
  | .bitwiseAnd => 0b010#3
  | .bitwiseOr => 0b011#3
  | .bitwiseXor => 0b100#3
  | .shiftLeftLogical => 0b101#3
  | .shiftRightLogical => 0b110#3

/-- The eight selector codes. -/
def selectorCodes : List Selector := [0b000#3, 0b001#3, 0b010#3, 0b011#3, 0b100#3, 0b101#3, 0b110#3, 0b111#3]

/-- The operation a selector code names under a numbering, none where it names no operation (spec/30_encoding.md R44). -/
def operationOfWith (sel : Operation → Selector) (code : Selector) : Option Operation :=
  Operation.all.find? (fun o => sel o == code)

/-- The first selector code that names no operation under a numbering (with seven names there always is one; the last
alternative is never taken). -/
def unassignedWith (sel : Operation → Selector) : Selector :=
  (selectorCodes.find? (fun code => (operationOfWith sel code).isNone)).getD 0b111#3

/-- `{op, a, b}` (spec/10_state.md R23). -/
def inVec (op : Selector) (a b : Byte) : InVec := op ++ a ++ b

/-- `IN[18:16]` (spec/30_encoding.md R40). -/
def opField (v : InVec) : Selector := v.extractLsb' 16 3

/-- `IN[15:8]` (spec/30_encoding.md R40). -/
def aField (v : InVec) : Byte := v.extractLsb' 8 8

/-- `IN[7:0]` (spec/30_encoding.md R40). -/
def bField (v : InVec) : Byte := v.extractLsb' 0 8

/-- The instruction for an operation, or for none, on two operands. -/
def Instr.ofOperation (o : Option Operation) (a b : Byte) : Instr :=
  match o with
  | some .add => .add a b
  | some .subtract => .sub a b
  | some .bitwiseAnd => .and a b
  | some .bitwiseOr => .or a b
  | some .bitwiseXor => .xor a b
  | some .shiftLeftLogical => .sll a b
  | some .shiftRightLogical => .srl a b
  | none => .rsv7 a b

/-- Decoding under a numbering. "Decoding is by the whole 3-bit field" (spec/30_encoding.md R43). -/
def decodeWith (sel : Operation → Selector) (v : InVec) : Instr :=
  Instr.ofOperation (operationOfWith sel (opField v)) (aField v) (bField v)

/-- The decoder, total (spec/30_encoding.md R51). -/
def decode (v : InVec) : Instr := decodeWith Config.SEL v

/-- Why a byte string is no input vector. -/
inductive DecodeError where
  /-- It is not the three bytes that hold 19 bits. -/
  | notThreeBytes
  /-- It sets a bit above bit 18, which is on no port. -/
  | noSuchPort
  deriving DecidableEq, Repr

/-- Decoding three bytes, least significant first: `b`, `a`, and `op` in the low bits of the third. The layout is the
model's, for numbered table words only (log entry 7); a bit above `IN[18]` is rejected. -/
def decodeBytes : List Byte → Except DecodeError Instr
  | [b, a, top] =>
    if top.toNat < 2 ^ Config.SELW then .ok (decode (inVec (top.setWidth 3) a b)) else .error .noSuchPort
  | _ => .error .notThreeBytes

/-- A table word as bytes, the least significant first, three bytes at least. -/
def tableWordBytes (nbits w : Nat) : List Byte :=
  (List.range (max 3 ((nbits + 7) / 8))).map (fun k => BitVec.ofNat 8 ((w % 2 ^ nbits) / 256 ^ k))

/-- A table word as an input vector: `IN` is numbered as the table numbers it (spec/30_encoding.md R52). -/
def tableWordVec (nbits w : Nat) : InVec := BitVec.ofNat 19 (w % 2 ^ nbits)

/-- The instruction the decoder reads from a word numbered as spec/opcode_table.json numbers it. -/
def decodeTableWord (nbits w : Nat) : Option Instr := (decodeBytes (tableWordBytes nbits w)).toOption

/-- The selector code of an instruction under a numbering. -/
def selectorOfWith (sel : Operation → Selector) (i : Instr) : Selector :=
  match i.operation with
  | some o => sel o
  | none => unassignedWith sel

/-- Encoding under a numbering (spec/30_encoding.md R40, R43). -/
def encodeWith (sel : Operation → Selector) (i : Instr) : InVec :=
  inVec (selectorOfWith sel i) i.operandA i.operandB

/-- The encoder. -/
def encode (i : Instr) : InVec := encodeWith Config.SEL i

/-- The number a request is written as: `op * 65536 + u(a) * 256 + u(b)` (spec/30_encoding.md R46). -/
def Request.number (r : Request) : Nat := r.op * 65536 + r.a * 256 + r.b

end Sys2Proof
end

