-- ==== Sys2Proof/Machine/State.lean ====
section
/-! DEFINITION. The state: the eight signals on the boundary of `ALU8` (spec/10_state.md R25). The block itself stores
nothing (R10), so these are the input vector the caller presents and the values on the output ports, which follow
it (spec/70_reset_and_hazards.md R116, R126; log entry 1). -/

namespace Sys2Proof.Machine

/-- "Four independent boolean fields — Zero, Carry, Negative, Overflow" (spec/10_state.md R15), true for 1. -/
structure FlagSet where
  z : Bool
  c : Bool
  n : Bool
  v : Bool
  deriving DecidableEq, Repr

/-- The five output ports: `result` (spec/10_state.md R14) and the flags (R15). -/
structure Outputs where
  result : Byte
  flags : FlagSet
  deriving DecidableEq, Repr

/-- The input ports `op`, `a`, `b` (spec/10_state.md R11 to R13) and the output ports. -/
structure State where
  op : Selector
  a : Byte
  b : Byte
  out : Outputs
  deriving DecidableEq, Repr

/-- No fault exists: "no failure path" (spec/60_exceptions.md R100). Nothing raises one, so the question whether it is
safe or unsafe does not arise. -/
inductive Fault where
  deriving DecidableEq, Repr

/-- The one refusal the host's interface asks for. -/
inductive Refusal where
  /-- Raised by nobody: every row of the opcode table has its meaning. Safe. -/
  | notModelled (mnemonic : String)
  deriving DecidableEq, Repr

/-- No register exists to reset (spec/10_state.md R22). The inputs are taken as 0 (DESIGN CHOICE, log entry 2), and the
outputs are what spec/70_reset_and_hazards.md R116 gives for inputs that are all 0: `OUT = 0x100` (DEDUCED, log entry 3). -/
def State.reset : State where
  op := 0b000#3
  a := 0x00#8
  b := 0x00#8
  out :=
    { result := 0x00#8
      flags := { z := true, c := false, n := false, v := false } }

end Sys2Proof.Machine
end

