-- ==== Sys2Proof/Machine/Flags.lean ====
section
/-! DEFINITION. The flag computations: the default of every flag, the two overflow helpers and the common computation of
Zero and Negative (spec/10_state.md R16, spec/41_arithmetic.md R66, R68, spec/40_evaluation.md R56 to R58). -/

namespace Sys2Proof.Machine

/-- Part 1 of an evaluation (spec/40_evaluation.md R55): all four flags 0, and the result the default branch keeps. -/
def Outputs.initial : Outputs where
  result := 0x00#8
  flags := { z := false, c := false, n := false, v := false }

/-- Add-overflow (spec/41_arithmetic.md R66): `(~(a ^ b) & (a ^ result))[7]`. -/
def addOverflow (a b result : Byte) : Bool := (~~~(a ^^^ b) &&& (a ^^^ result)).getLsbD 7

/-- Subtract-overflow (spec/41_arithmetic.md R68): `((a ^ b) & (a ^ result))[7]`. -/
def subOverflow (a b result : Byte) : Bool := ((a ^^^ b) &&& (a ^^^ result)).getLsbD 7

/-- Zero (spec/40_evaluation.md R56): of the 8-bit result, not of an intermediate. -/
def zeroFlag (result : Byte) : Bool := result == 0x00#8

/-- Negative (spec/40_evaluation.md R57). -/
def negativeFlag (result : Byte) : Bool := result.getLsbD 7

/-- A branch writes its result, Carry and Overflow over the outputs it is handed, and leaves the rest. -/
def Outputs.branch (o : Outputs) (result : Byte) (carry overflow : Bool) : Outputs :=
  { o with result := result, flags := { o.flags with c := carry, v := overflow } }

/-- Part 3 of an evaluation: Zero and Negative from the result, "overwriting any branch-specific partial state"
(spec/40_evaluation.md R58); Carry and Overflow are not touched. -/
def Outputs.withCommonFlags (o : Outputs) : Outputs :=
  { o with flags := { o.flags with z := zeroFlag o.result, n := negativeFlag o.result } }

end Sys2Proof.Machine
end

