-- ==== Sys2Proof/Machine/Operands.lean ====
section
/-! DEFINITION. How an operand is read: "used exactly as presented" (spec/30_encoding.md R45). Its unsigned and signed
readings, and its zero extension where an intermediate is formed (spec/00_scope.md R8, R9). -/

namespace Sys2Proof.Machine

/-- `u(v)`, the unsigned reading (spec/00_scope.md R8). -/
def uval (v : Byte) : Nat := v.toNat

/-- `s(v)`: `u(v)` when `v[7] = 0`, `u(v) - 256` when `v[7] = 1` (spec/00_scope.md R8). -/
def sval (v : Byte) : Int := if v.getLsbD 7 then (uval v : Int) - 256 else uval v

/-- `zext_p(v)` (spec/00_scope.md R9 with `p = 9`): operands are never sign-extended. -/
def zext (p : Nat) (v : Byte) : BitVec p := v.setWidth p

end Sys2Proof.Machine
end

