-- ==== Sys2Proof/Machine/Ops.lean ====
section
/-! DEFINITION. The operations the meanings share: the intermediates of part 2 of an evaluation, reading the input ports,
presenting outputs, and putting an input vector on the ports. `ALU8` has no registers, no memory and no exceptions
(spec/10_state.md R18 to R21, spec/20_memory.md R30, spec/60_exceptions.md R100, R104, R105), so there is no register,
memory, exception-entry or exception-return operation here. -/

namespace Sys2Proof.Machine

/-- The sum of the zero-extended operands at precision `p` (spec/41_arithmetic.md R65). -/
def sumAt (p : Nat) (a b : Byte) : BitVec p := zext p a + zext p b

/-- The difference of the zero-extended operands at precision `p`, wrapped (spec/41_arithmetic.md R67). -/
def diffAt (p : Nat) (a b : Byte) : BitVec p := zext p a - zext p b

/-- `a` shifted left at precision `p` (spec/43_shift.md R90). -/
def shiftedLeftAt (p : Nat) (a : Byte) : BitVec p := zext p a <<< Config.SHAMT

/-- `t[7:0]` of an intermediate. -/
def lowByte {p : Nat} (t : BitVec p) : Byte := t.setWidth 8

/-- `t[8]` of an intermediate. -/
def ninthBit {p : Nat} (t : BitVec p) : Bool := t.getLsbD 8

/-- The five output ports take new values together (spec/20_memory.md R33); the input ports are the caller's. -/
def State.present (st : State) (o : Outputs) : State := { st with out := o }

/-- An evaluation ends: the common flags are computed over what the branch left, and the outputs are presented
(spec/40_evaluation.md R55, R58). It always answers a next state (R60). -/
def finish (branch : Outputs) (st : State) : Host.Outcome State Fault Refusal :=
  .next (st.present branch.withCommonFlags)

/-- The input vector that stands on the ports. -/
def State.inputs (st : State) : InVec := inVec st.op st.a st.b

/-- The input ports alone take a new vector. What the caller's change of the inputs does to the whole block is
`State.drive`, which also lets the outputs follow. -/
def State.withInputs (st : State) (v : InVec) : State :=
  { st with op := opField v, a := aField v, b := bField v }

/-- The request that stands on the ports, decoded: the block's whole "fetch" (spec/20_memory.md R39). -/
def fetch (st : State) : Instr := decode st.inputs

/-- `OUT[11:0] = {V, N, C, Z, result}` (spec/10_state.md R23, spec/30_encoding.md R47). -/
def Outputs.vec (o : Outputs) : OutVec :=
  BitVec.ofBool o.flags.v ++ BitVec.ofBool o.flags.n ++ BitVec.ofBool o.flags.c ++ BitVec.ofBool o.flags.z ++ o.result

end Sys2Proof.Machine
end

