-- ==== Sys2Proof/Machine/Arithmetic.lean ====
section
/-! DEFINITION. The meanings of ADD and SUB (spec/41_arithmetic.md). -/

namespace Sys2Proof.Machine

/-- The Add branch at precision `p` (spec/41_arithmetic.md R65): Carry is the unsigned carry-out. -/
def addBranch (p : Nat) (a b : Byte) : Outputs :=
  Outputs.initial.branch (lowByte (sumAt p a b)) (ninthBit (sumAt p a b)) (addOverflow a b (lowByte (sumAt p a b)))

/-- The Subtract branch at precision `p` (spec/41_arithmetic.md R67): Carry is the borrow, a meaning of its own that R69
forbids to merge with Add's. -/
def subBranch (p : Nat) (a b : Byte) : Outputs :=
  Outputs.initial.branch (lowByte (diffAt p a b)) (ninthBit (diffAt p a b)) (subOverflow a b (lowByte (diffAt p a b)))

/-- `ADD` (spec/41_arithmetic.md R65). -/
def execAdd (a b : Byte) (st : State) : Host.Outcome State Fault Refusal :=
  finish (addBranch Config.IPREC a b) st

/-- `SUB` (spec/41_arithmetic.md R67). -/
def execSub (a b : Byte) (st : State) : Host.Outcome State Fault Refusal :=
  finish (subBranch Config.IPREC a b) st

end Sys2Proof.Machine
end

