-- ==== Sys2Proof/Machine/Logic.lean ====
section
/-! DEFINITION. The meanings of AND, OR and XOR (spec/42_logic.md). -/

namespace Sys2Proof.Machine

/-- A bitwise branch: Carry and Overflow are "driven to 0, not left as they were" (spec/42_logic.md R83). -/
def bitwiseBranch (result : Byte) : Outputs := Outputs.initial.branch result false false

/-- `AND` (spec/42_logic.md R80). -/
def execAnd (a b : Byte) (st : State) : Host.Outcome State Fault Refusal :=
  finish (bitwiseBranch (a &&& b)) st

/-- `OR` (spec/42_logic.md R81). -/
def execOr (a b : Byte) (st : State) : Host.Outcome State Fault Refusal :=
  finish (bitwiseBranch (a ||| b)) st

/-- `XOR` (spec/42_logic.md R82). -/
def execXor (a b : Byte) (st : State) : Host.Outcome State Fault Refusal :=
  finish (bitwiseBranch (a ^^^ b)) st

end Sys2Proof.Machine
end

