-- ==== Sys2Proof/Machine/Reserved.lean ====
section
/-! DEFINITION. The meaning of RSV7, the selector code that names no operation: "compute nothing, report zero"
(spec/40_evaluation.md R59). -/

namespace Sys2Proof.Machine

/-- `RSV7` (spec/40_evaluation.md R59): no branch writes anything, so the default result meets the common flags. The
spec keeps this permissive default of D0 by decision D5 (log entry 8). -/
def execRsv7 (st : State) : Host.Outcome State Fault Refusal := finish Outputs.initial st

end Sys2Proof.Machine
end

