-- ==== Sys2Proof/Machine/Shift.lean ====
section
/-! DEFINITION. The meanings of SLL and SRL (spec/43_shift.md): unary, by one place, filled with 0; Carry is the bit
shifted out, Overflow is 0 (R93), `b` is not read (R92). -/

namespace Sys2Proof.Machine

/-- The ShiftLeftLogical branch at precision `p` (spec/43_shift.md R90). -/
def sllBranch (p : Nat) (a : Byte) : Outputs :=
  Outputs.initial.branch (lowByte (shiftedLeftAt p a)) (ninthBit (shiftedLeftAt p a)) false

/-- The ShiftRightLogical branch (spec/43_shift.md R91). -/
def srlBranch (a : Byte) : Outputs :=
  Outputs.initial.branch (a >>> Config.SHAMT) (a.getLsbD 0) false

/-- `SLL` (spec/43_shift.md R90). -/
def execSll (a : Byte) (st : State) : Host.Outcome State Fault Refusal :=
  finish (sllBranch Config.IPREC a) st

/-- `SRL` (spec/43_shift.md R91). -/
def execSrl (a : Byte) (st : State) : Host.Outcome State Fault Refusal :=
  finish (srlBranch a) st

end Sys2Proof.Machine
end

