-- ==== Sys2Proof/Machine/Dispatch.lean ====
section
/-! DEFINITION. One arm per row of spec/opcode_table.json, each one call of that instruction's meaning. -/

namespace Sys2Proof.Machine

def exec (i : Instr) (s : State) : Host.Outcome State Fault Refusal :=
  match i with
  -- spec/41_arithmetic.md
  | .add a b => Sys2Proof.Machine.execAdd a b s
  | .sub a b => Sys2Proof.Machine.execSub a b s
  -- spec/42_logic.md
  | .and a b => Sys2Proof.Machine.execAnd a b s
  | .or a b => Sys2Proof.Machine.execOr a b s
  | .xor a b => Sys2Proof.Machine.execXor a b s
  -- spec/43_shift.md
  | .sll a _ => Sys2Proof.Machine.execSll a s
  | .srl a _ => Sys2Proof.Machine.execSrl a s
  -- spec/40_evaluation.md R59
  | .rsv7 _ _ => Sys2Proof.Machine.execRsv7 s

end Sys2Proof.Machine
end

