-- ==== Sys2Proof/Machine/Drive.lean ====
section
/-! DEFINITION. The caller's side of the block: the outputs an instruction presents, and what happens when the caller
changes the inputs. "Outputs are not held. `result` and the flags follow the inputs; when the caller changes an input, the
previous outputs are gone" (spec/70_reset_and_hazards.md R126). -/

namespace Sys2Proof.Machine

/-- The outputs an instruction presents when it is evaluated in a state; where it answered no next state (which never
happens) the outputs that stood there. -/
def outputsOf (i : Instr) (st : State) : Outputs :=
  match exec i st with
  | .next t => t.out
  | .fault _ => st.out
  | .refused _ => st.out

/-- The outputs take the function value of the inputs that stand on the ports (spec/70_reset_and_hazards.md R116). -/
def State.follow (st : State) : State := st.present (outputsOf (fetch st) st)

/-- The caller puts an input vector on the ports (spec/10_state.md R24) and the outputs follow it at once: nothing of the
previous outputs is held (spec/70_reset_and_hazards.md R126), and there is no moment between, because the block is
zero-delay (R119; log entry 4). -/
def State.drive (st : State) (v : InVec) : State := (st.withInputs v).follow

end Sys2Proof.Machine
end

