-- ==== Sys2Proof/Machine/Step.lean ====
section
/-! DEFINITION. One step is one evaluation of the input vector that stands on the ports (spec/70_reset_and_hazards.md
R119, R120). The ports keep what the caller drives, so a further step evaluates the same vector again. -/

namespace Sys2Proof.Machine

/-- One evaluation. Nothing is added around `exec`: there is no program counter to move (spec/10_state.md R19). -/
def step (st : State) : Host.Outcome State Fault Refusal := exec (fetch st) st

/-- The state with a table word driven on the input ports, where `step` takes its next request (log entry 10). The
outputs follow the new inputs, as they do whenever the caller drives (spec/70_reset_and_hazards.md R126). -/
def State.withFetchWord (st : State) (nbits w : Nat) : State := st.drive (tableWordVec nbits w)

end Sys2Proof.Machine
end

