-- ==== Sys2Proof/Machine/Session.lean ====
section
/-! DEFINITION. What the caller captures of a sequence of evaluations, each driven, evaluated and captured in turn
(spec/20_memory.md R36, spec/10_state.md R24).
How a caller computes operands from what it captured is the harness, which is not modelled (spec/92_eei_decisions.md D15). -/

namespace Sys2Proof.Machine

/-- The outputs captured by a caller that drives input vectors one after another and evaluates each. -/
def evaluateSeq : List InVec → State → List Outputs
  | [], _ => []
  | v :: vs, st =>
    match step (st.drive v) with
    | .next t => t.out :: evaluateSeq vs t
    | .fault _ => []
    | .refused _ => []

end Sys2Proof.Machine
end

