-- ==== Sys2Proof/Safety.lean ====
section
/-! DEFINITION. The terms claims are stated in: the whole-block pseudocode of spec/40_evaluation.md R55, written out once
as the spec has it; the same function said in integers (the table of spec/10_state.md R15 with the arithmetic readings of
spec/41_arithmetic.md and spec/43_shift.md), which shares nothing with the meanings of Sys2Proof/Machine; and what a
settled state is. -/

namespace Sys2Proof.Safety

open Sys2Proof.Machine

/-- The pseudocode of spec/40_evaluation.md R55, over the raw ports. -/
def evaluate (a b : Byte) (op : Selector) : Outputs :=
  let ofParts (result : Byte) (carry overflow : Bool) : Outputs :=
    { result := result
      flags := { z := result == 0x00#8, c := carry, n := result.getLsbD 7, v := overflow } }
  match operationOfWith Config.SEL op with
  | some .add =>
    let t : BitVec 9 := a.setWidth 9 + b.setWidth 9
    let result := t.extractLsb' 0 8
    ofParts result (t.getLsbD 8) ((~~~(a ^^^ b) &&& (a ^^^ result)).getLsbD 7)
  | some .subtract =>
    let t : BitVec 9 := a.setWidth 9 - b.setWidth 9
    let result := t.extractLsb' 0 8
    ofParts result (t.getLsbD 8) (((a ^^^ b) &&& (a ^^^ result)).getLsbD 7)
  | some .bitwiseAnd => ofParts (a &&& b) false false
  | some .bitwiseOr => ofParts (a ||| b) false false
  | some .bitwiseXor => ofParts (a ^^^ b) false false
  | some .shiftLeftLogical =>
    let t : BitVec 9 := a ++ 0#1
    ofParts (t.extractLsb' 0 8) (t.getLsbD 8) false
  | some .shiftRightLogical => ofParts (0#1 ++ a.extractLsb' 1 7) (a.getLsbD 0) false
  | none => ofParts 0x00#8 false false

/-- The unsigned value of the result, in integers. -/
def tableResult (o : Option Operation) (a b : Byte) : Int :=
  match o with
  | some .add => ((uval a : Int) + uval b) % 256
  | some .subtract => ((uval a : Int) - uval b) % 256
  | some .bitwiseAnd => (uval a &&& uval b : Nat)
  | some .bitwiseOr => (uval a ||| uval b : Nat)
  | some .bitwiseXor => (uval a ^^^ uval b : Nat)
  | some .shiftLeftLogical => (2 * (uval a : Int)) % 256
  | some .shiftRightLogical => (uval a : Int) / 2
  | none => 0

/-- Carry: carry-out, borrow, or the bit shifted out (spec/41_arithmetic.md R69, spec/43_shift.md R96). -/
def tableCarry (o : Option Operation) (a b : Byte) : Bool :=
  match o with
  | some .add => decide (256 ≤ uval a + uval b)
  | some .subtract => decide (uval a < uval b)
  | some .bitwiseAnd => false
  | some .bitwiseOr => false
  | some .bitwiseXor => false
  | some .shiftLeftLogical => decide (256 ≤ 2 * uval a)
  | some .shiftRightLogical => decide (uval a % 2 = 1)
  | none => false

/-- A signed value that two's complement holds in a byte. -/
def fitsSigned (x : Int) : Bool := decide (-128 ≤ x ∧ x ≤ 127)

/-- Overflow: the exact signed sum or difference does not fit (spec/41_arithmetic.md R70, R71), never for another
operation (spec/40_evaluation.md R63). -/
def tableOverflow (o : Option Operation) (a b : Byte) : Bool :=
  match o with
  | some .add => !fitsSigned (sval a + sval b)
  | some .subtract => !fitsSigned (sval a - sval b)
  | some .bitwiseAnd => false
  | some .bitwiseOr => false
  | some .bitwiseXor => false
  | some .shiftLeftLogical => false
  | some .shiftRightLogical => false
  | none => false

/-- Outputs are those the integer table gives for an instruction. -/
structure MatchesTable (i : Instr) (out : Outputs) : Prop where
  result : (uval out.result : Int) = tableResult i.operation i.operandA i.operandB
  zero : out.flags.z = decide (tableResult i.operation i.operandA i.operandB = 0)
  carry : out.flags.c = tableCarry i.operation i.operandA i.operandB
  negative : out.flags.n = decide (128 ≤ tableResult i.operation i.operandA i.operandB)
  overflow : out.flags.v = tableOverflow i.operation i.operandA i.operandB

/-- A settled state: the outputs "equal the function of the current inputs" (spec/70_reset_and_hazards.md R116, R119,
R126). Reset is settled, and driving inputs and stepping both end settled. -/
def Settled (st : State) : Prop := MatchesTable (fetch st) st.out

/-- An evaluation that completes. A run of the block is safe where every step does. -/
def Completes (st : State) : Prop := ∃ t, step st = .next t

end Sys2Proof.Safety
end

