-- ==== Sys2Proof/Certificates/Slice0/Obligations.lean ====
section
/-! DEFINITION. The statements for the provers. Every result statement concludes that `exec` answers the next state
`{ st with out := o }` for every state `st`: the instruction completes, the input ports keep what the caller drives, and
nothing but the five outputs changes (its frame: the machine has no other state, spec/10_state.md R10, R25). A statement
that rests on an inference or a decision the spec marks as its own says so, with basis `derived`. -/

open Sys2Proof Sys2Proof.Machine Sys2Proof.Safety

/-! ## Encoding -/

/-- One word of each family, written out from the encodings of spec/30_encoding.md R43, R46 with the input vectors of
spec/95_test_vectors.md section 1 and 2 (the codes are the spec's own decision D4, log entry 6). -/
def Obligations.FamilyWordsDecode : Prop :=
  decode 0b0001111111100000001#19 = .add 0xFF#8 0x01#8 ∧
  decode 0b0010000101000101000#19 = .sub 0x0A#8 0x28#8 ∧
  decode 0b0100011110000001111#19 = .and 0x3C#8 0x0F#8 ∧
  decode 0b0110011110000001111#19 = .or 0x3C#8 0x0F#8 ∧
  decode 0b1000011110000001111#19 = .xor 0x3C#8 0x0F#8 ∧
  decode 0b1011000000100000000#19 = .sll 0x81#8 0x00#8 ∧
  decode 0b1100000001100000000#19 = .srl 0x03#8 0x00#8 ∧
  decode 0b1110001001000110100#19 = .rsv7 0x12#8 0x34#8

/-- For EVERY numbering of the seven operations by distinct codes, decoding an encoded instruction gives it back, the
reserved one too (spec/30_encoding.md R43: "nothing in D0 depends on the numbering ... a model can take this table as a
configuration value"; the numbering is decision D4, log entry 6). -/
def Obligations.DecodeOfEncodeUnderEveryNumbering : Prop :=
  ∀ sel : Operation → Selector, Function.Injective sel →
    ∀ i : Instr, decodeWith sel (encodeWith sel i) = i

/-- The other direction: under every numbering by distinct codes, encoding a decoded input vector gives it back, so that
each of the `2^19` vectors is the word of exactly one instruction (decision D4, log entry 6). -/
def Obligations.EncodeOfDecodeUnderEveryNumbering : Prop :=
  ∀ sel : Operation → Selector, Function.Injective sel →
    ∀ v : InVec, encodeWith sel (decodeWith sel v) = v

/-- spec/30_encoding.md R51: every input vector decodes to one row (the one whose word it is), has one defined output
vector, and the step function has neither a fault nor a refusal outcome. -/
def Obligations.EveryInputVectorHasOneMeaning : Prop :=
  ∀ v : InVec,
    (∃! i : Instr, encode i = v) ∧ encode (decode v) = v ∧
    ∃! out : OutVec, ∀ st : State, ∃ o : Outputs,
      step (st.drive v) = .next { st.drive v with out := o } ∧ o.vec = out

/-- A request of three numbers that fit their ports is the number `op * 65536 + u(a) * 256 + u(b)` (spec/30_encoding.md
R46, decision D6), and the word with that number decodes to the operation of its code on its two operands. -/
def Obligations.RequestNumberDecodesToItsFields : Prop :=
  ∀ r : Request, r.wellFormed = true →
    ∃ i : Instr, decode (BitVec.ofNat 19 r.number) = i ∧
      decodeTableWord 24 r.number = some i ∧
      uval i.operandA = r.a ∧ uval i.operandB = r.b ∧
      i.operation = operationOfWith Config.SEL (BitVec.ofNat 3 r.op)

/-- The two vector notations as numbers: `IN = op * 65536 + u(a) * 256 + u(b)` and
`OUT = V * 2048 + N * 1024 + C * 512 + Z * 256 + u(result)` (spec/30_encoding.md R46, R47, decision D6). -/
def Obligations.VectorNotationsAsNumbers : Prop :=
  (∀ (op : Selector) (a b : Byte), (inVec op a b).toNat = op.toNat * 65536 + uval a * 256 + uval b) ∧
  (∀ o : Outputs,
    o.vec.toNat = o.flags.v.toNat * 2048 + o.flags.n.toNat * 1024 + o.flags.c.toNat * 512 +
      o.flags.z.toNat * 256 + uval o.result)

/-! ## The step -/

/-- One step runs the instruction that the input ports decode to, with nothing added around `exec`: no program counter
moves, because there is none (spec/10_state.md R19, spec/70_reset_and_hazards.md R120). -/
def Obligations.StepRunsTheDecodedInstruction : Prop :=
  ∀ (st : State) (i : Instr), decode (inVec st.op st.a st.b) = i → step st = exec i st

/-- Driving a table word that the decoder reads as `i` makes the very next step run `i` (the word's layout and how a
request comes to run are the model's, log entries 7 and 10), and the outputs that stood before are gone: those of `i` stand
there, whatever state `st'` they are computed in (the spec's derivation R126 of spec/70_reset_and_hazards.md, "the previous
outputs are gone"; that no moment lies between is the zero-delay reading, log entry 4). -/
def Obligations.DrivenTableWordRunsNext : Prop :=
  ∀ (nbits w : Nat) (i : Instr) (st : State), decodeTableWord nbits w = some i →
    decode (st.withFetchWord nbits w).inputs = i ∧
    step (st.withFetchWord nbits w) = exec i (st.withFetchWord nbits w) ∧
    ∀ st' : State, (st.withFetchWord nbits w).out = outputsOf i st'

/-- spec/40_evaluation.md R55: for every input vector a step presents the outputs of the whole-block pseudocode, and
changes nothing else. -/
def Obligations.StepIsWholeBlockPseudocode : Prop :=
  ∀ st : State, step st = .next { st with out := evaluate st.a st.b st.op }

/-- Refinement: for every instruction and state, `exec` completes and the outputs it presents are those of the integer
table, where sums, differences, products and the ranges of signed values are exact (spec/10_state.md section 3, with the
spec's own derivations R70, R71 and R97 for Overflow and the shifts). -/
def Obligations.ExecRefinesIntegerTable : Prop :=
  ∀ (i : Instr) (st : State), ∃ o : Outputs, exec i st = .next { st with out := o } ∧ MatchesTable i o

/-- The invariant: from any settled state (outputs that agree with the current inputs, spec/70_reset_and_hazards.md
R116, R119) every step answers a settled state; and driving new inputs and then stepping answers, from ANY state, settled
or not, a settled state with the driven inputs kept. -/
def Obligations.StepKeepsStatesSettled : Prop :=
  (∀ st t : State, Settled st → step st = .next t → Settled t) ∧
  (∀ (st : State) (v : InVec), ∃ t, step (st.drive v) = .next t ∧ Settled t ∧ t.inputs = v)

/-- The reset state is settled. Its inputs are the model's choice (log entries 2 and 3). -/
def Obligations.ResetIsSettled : Prop := Settled State.reset

/-- The reset state: inputs 0 (the model's choice, log entry 2) and `OUT = 0x100`, "note `Z = 1`, not all outputs zero"
(spec/70_reset_and_hazards.md R116, log entry 3). -/
def Obligations.ResetPorts : Prop :=
  State.reset.inputs = 0x00000#19 ∧ State.reset.out.vec = 0x100#12

/-- Inputs that are all 0 are `ADD 0x00, 0x00`: whatever stood before, the outputs are `OUT = 0x100` (the derived last
paragraph of spec/70_reset_and_hazards.md R116). -/
def Obligations.AllZeroInputsReportZero : Prop :=
  ∀ st : State, ∃ o : Outputs,
    step (st.drive 0x00000#19) = .next { st.drive 0x00000#19 with out := o } ∧
    o.result = 0x00#8 ∧ o.flags = { z := true, c := false, n := false, v := false } ∧ o.vec = 0x100#12

/-! ## Flags and the evaluation as a whole -/

/-- spec/40_evaluation.md R56: for every operation and the reserved code `Z = 1` iff the 8-bit result is 0, also where
the exact sum is 256 or the only set bit is shifted out. -/
def Obligations.ZeroFlagIsOfTheByte : Prop :=
  (∀ (i : Instr) (st : State), ∃ o : Outputs,
    exec i st = .next { st with out := o } ∧ (o.flags.z = true ↔ o.result = 0x00#8)) ∧
  (∀ st : State,
    outputsOf (.add 0xFF#8 0x01#8) st = { result := 0x00#8, flags := { z := true, c := true, n := false, v := false } } ∧
    ∀ b : Byte,
      outputsOf (.sll 0x80#8 b) st = { result := 0x00#8, flags := { z := true, c := true, n := false, v := false } })

/-- For every operation and the reserved code `N = result[7]`, after OR as readily as after an addition (the unmarked part
of spec/40_evaluation.md R57); with the consequences R57 marks as derived, the spec's own inference: 0 after SRL and the
reserved code, `a[6]` after SLL, "`N = 1` and `Z = 1` never occur together". -/
def Obligations.NegativeFlagIsBitSeven : Prop :=
  (∀ (i : Instr) (st : State), ∃ o : Outputs,
    exec i st = .next { st with out := o } ∧ o.flags.n = o.result.getLsbD 7 ∧ ¬ (o.flags.n = true ∧ o.flags.z = true)) ∧
  (∀ (a b : Byte) (st : State),
    (outputsOf (.srl a b) st).flags.n = false ∧ (outputsOf (.rsv7 a b) st).flags.n = false ∧
    (outputsOf (.sll a b) st).flags.n = a.getLsbD 6 ∧
    (outputsOf (.or 0x80#8 0x00#8) st).result = 0x80#8 ∧ (outputsOf (.or 0x80#8 0x00#8) st).flags.n = true)

/-- spec/40_evaluation.md R58: the common computation comes last and wins. Whatever Zero and Negative a branch left, they
are overwritten from the result, Carry and Overflow are not touched, and no evaluation presents a Zero or Negative that
disagrees with its result. -/
def Obligations.CommonFlagsOverwriteBranchState : Prop :=
  (∀ (o : Outputs) (z n : Bool),
    ({ o with flags := { o.flags with z := z, n := n } } : Outputs).withCommonFlags = o.withCommonFlags ∧
    o.withCommonFlags.flags.c = o.flags.c ∧ o.withCommonFlags.flags.v = o.flags.v ∧
    o.withCommonFlags.result = o.result) ∧
  (∀ (i : Instr) (st : State), ∃ o : Outputs,
    exec i st = .next { st with out := o } ∧ (o.flags.z = true ↔ o.result = 0x00#8) ∧ o.flags.n = o.result.getLsbD 7)

/-- spec/40_evaluation.md R63 and spec/42_logic.md R83: which flags are 0 on the output every time, whatever they were
before: Carry of AND, OR, XOR and RSV7, Overflow of these and of both shifts. Only ADD and SUB can produce `V = 1`, and
both do. -/
def Obligations.UncomputedFlagsAreDrivenToZero : Prop :=
  (∀ (i : Instr) (st : State), ∃ o : Outputs,
    exec i st = .next { st with out := o } ∧
    ((∃ a b, i = .and a b ∨ i = .or a b ∨ i = .xor a b ∨ i = .rsv7 a b) → o.flags.c = false) ∧
    (o.flags.v = true → ∃ a b, i = .add a b ∨ i = .sub a b)) ∧
  (∀ st : State, (∃ a b, (outputsOf (.add a b) st).flags.v = true) ∧ (∃ a b, (outputsOf (.sub a b) st).flags.v = true))

/-- spec/40_evaluation.md R60: the evaluation is defined for all 524288 input vectors and gives exactly one output for
each, with no part left to history. -/
def Obligations.EvaluationIsTotalAndDeterministic : Prop :=
  ∀ (a b : Byte) (op : Selector), ∃! o : Outputs, ∀ st : State,
    step (st.drive (inVec op a b)) = .next { st.drive (inVec op a b) with out := o }

/-- spec/40_evaluation.md R61 and spec/10_state.md R17: an evaluation changes nothing but the values on the output ports,
and reads only its own arguments: in any two states whatsoever, whatever flags stood there, an instruction presents the
same outputs, all four flags driven anew. -/
def Obligations.EvaluationHasNoSideEffect : Prop :=
  ∀ (i : Instr) (st st' : State), ∃ o : Outputs,
    exec i st = .next { st with out := o } ∧ exec i st' = .next { st' with out := o }

/-- No evaluation stops: `exec` and `step` never fault and never refuse (spec/60_exceptions.md section 1, "no failure
path"; spec/30_encoding.md section 4). -/
def Obligations.NoEvaluationStops : Prop :=
  (∀ (i : Instr) (st : State), (∀ r, exec i st ≠ .fault r) ∧ (∀ r, exec i st ≠ .refused r)) ∧
  (∀ st : State, Completes st)

/-- Any intermediate precision of at least 9 bits gives the same branches as 9 (the derived part of
spec/40_evaluation.md R62, spec/93_implementation_defined.md U3). -/
def Obligations.WiderIntermediatesChangeNothing : Prop :=
  ∀ p : Nat, 9 ≤ p → ∀ a b : Byte,
    addBranch p a b = addBranch 9 a b ∧ subBranch p a b = subBranch 9 a b ∧ sllBranch p a = sllBranch 9 a

/-- spec/40_evaluation.md R59: RSV7 gives result 0 with `Z = 1` and the other flags 0, whatever `a` and `b`; bit for bit
the outputs of `XOR x, x` and `AND x, 0x00`. The word is `0x7aabb`. -/
def Obligations.ReservedCodeReportsZero : Prop :=
  ∀ (a b : Byte) (st : State),
    decode (BitVec.ofNat 19 (0x70000 + uval a * 256 + uval b)) = .rsv7 a b ∧
    exec (.rsv7 a b) st =
      .next { st with out := { result := 0x00#8, flags := { z := true, c := false, n := false, v := false } } } ∧
    ∀ x : Byte, outputsOf (.xor x x) st = outputsOf (.rsv7 a b) st ∧ outputsOf (.and x 0x00#8) st = outputsOf (.rsv7 a b) st

/-! ## Arithmetic -/

/-- ADD as spec/41_arithmetic.md R65 has it, whole: encoding, result, all four flags, that all four combinations of `C` and
`V` occur, and commutativity, which R65 marks as derived ("Add is commutative in all five outputs"), the spec's own
inference. -/
def Obligations.AddRule : Prop :=
  ∀ (a b : Byte) (st : State),
    decode (BitVec.ofNat 19 (0x00000 + uval a * 256 + uval b)) = .add a b ∧
    (∃ o : Outputs, exec (.add a b) st = .next { st with out := o } ∧
      uval o.result = (uval a + uval b) % 256 ∧
      (o.flags.c = true ↔ 256 ≤ uval a + uval b) ∧
      (o.flags.v = true ↔ a.getLsbD 7 = b.getLsbD 7 ∧ o.result.getLsbD 7 ≠ a.getLsbD 7) ∧
      (o.flags.z = true ↔ o.result = 0x00#8) ∧
      o.flags.n = o.result.getLsbD 7) ∧
    outputsOf (.add a b) st = outputsOf (.add b a) st ∧
    ∀ c v : Bool, ∃ x y, (outputsOf (.add x y) st).flags.c = c ∧ (outputsOf (.add x y) st).flags.v = v

/-- spec/41_arithmetic.md R67, whole: encoding, result, all four flags with Carry as the borrow, that the operation is
not commutative, that `C` and `Z` are never 1 together, and that all four combinations of `C` and `V` occur. -/
def Obligations.SubRule : Prop :=
  ∀ (a b : Byte) (st : State),
    decode (BitVec.ofNat 19 (0x10000 + uval a * 256 + uval b)) = .sub a b ∧
    (∃ o : Outputs, exec (.sub a b) st = .next { st with out := o } ∧
      (uval o.result : Int) = ((uval a : Int) - uval b) % 256 ∧
      (o.flags.c = true ↔ uval a < uval b) ∧
      (o.flags.v = true ↔ a.getLsbD 7 ≠ b.getLsbD 7 ∧ o.result.getLsbD 7 ≠ a.getLsbD 7) ∧
      (o.flags.z = true ↔ o.result = 0x00#8) ∧
      o.flags.n = o.result.getLsbD 7 ∧
      ¬ (o.flags.c = true ∧ o.flags.z = true)) ∧
    (∃ x y, outputsOf (.sub x y) st ≠ outputsOf (.sub y x) st) ∧
    ∀ c v : Bool, ∃ x y, (outputsOf (.sub x y) st).flags.c = c ∧ (outputsOf (.sub x y) st).flags.v = v

/-- spec/41_arithmetic.md R66: the Add-overflow helper is "same sign, and the result's sign differs from theirs", only
bit 7 matters, ADD's Overflow is the helper on the truncated sum, and only ADD and SUB use a helper at all, SUB the other
one. -/
def Obligations.AddOverflowHelper : Prop :=
  (∀ a b r : Byte, addOverflow a b r = true ↔ a.getLsbD 7 = b.getLsbD 7 ∧ r.getLsbD 7 ≠ a.getLsbD 7) ∧
  (∀ (a b : Byte) (st : State), ∃ o : Outputs, exec (.add a b) st = .next { st with out := o } ∧
    uval o.result = (uval a + uval b) % 256 ∧ o.flags.v = addOverflow a b o.result) ∧
  (∀ (i : Instr) (st : State), (outputsOf i st).flags.v = true →
    (∃ a b, i = .add a b ∧ addOverflow a b (outputsOf i st).result = true) ∨
    (∃ a b, i = .sub a b ∧ subOverflow a b (outputsOf i st).result = true))

/-- spec/41_arithmetic.md R68: the Subtract-overflow helper is "different signs, and the result's sign differs from
a's", it differs from the Add helper in exactly one complement, SUB's Overflow is the helper on the truncated difference,
and no other instruction but ADD reports Overflow. -/
def Obligations.SubtractOverflowHelper : Prop :=
  (∀ a b r : Byte,
    (subOverflow a b r = true ↔ a.getLsbD 7 ≠ b.getLsbD 7 ∧ r.getLsbD 7 ≠ a.getLsbD 7) ∧
    addOverflow a b r = (~~~(a ^^^ b) &&& (a ^^^ r)).getLsbD 7 ∧
    subOverflow a b r = ((a ^^^ b) &&& (a ^^^ r)).getLsbD 7) ∧
  (∀ (a b : Byte) (st : State), ∃ o : Outputs, exec (.sub a b) st = .next { st with out := o } ∧
    (uval o.result : Int) = ((uval a : Int) - uval b) % 256 ∧ o.flags.v = subOverflow a b o.result) ∧
  (∀ (i : Instr) (st : State), (outputsOf i st).flags.v = true → (∀ a b, i ≠ .add a b) →
    ∃ a b, i = .sub a b ∧ subOverflow a b (outputsOf i st).result = true)

/-- The spec's derivation R70 of spec/41_arithmetic.md: ADD overflows exactly where the signed sum leaves `-128 .. 127`;
equivalently `V = c7 ^ C`; and the signed result is the exact sum, or the sum plus or minus 256. -/
def Obligations.AddOverflowIsSignedRange : Prop :=
  ∀ (a b : Byte) (st : State), ∃ o : Outputs, exec (.add a b) st = .next { st with out := o } ∧
    (o.flags.v = true ↔ ¬ (-128 ≤ sval a + sval b ∧ sval a + sval b ≤ 127)) ∧
    o.flags.v = (decide (128 ≤ uval a % 128 + uval b % 128) ^^ o.flags.c) ∧
    (o.flags.v = false → sval o.result = sval a + sval b) ∧
    (o.flags.v = true → sval o.result = sval a + sval b + 256 ∨ sval o.result = sval a + sval b - 256)

/-- The spec's derivation R71 of spec/41_arithmetic.md: SUB overflows exactly where the signed difference leaves
`-128 .. 127`, the signed result is exact where it does not, and the Subtract helper on `(a, b)` is the Add helper on
`(a, ~b)`. -/
def Obligations.SubtractOverflowIsSignedRange : Prop :=
  (∀ (a b : Byte) (st : State), ∃ o : Outputs, exec (.sub a b) st = .next { st with out := o } ∧
    (o.flags.v = true ↔ ¬ (-128 ≤ sval a - sval b ∧ sval a - sval b ≤ 127)) ∧
    (o.flags.v = false → sval o.result = sval a - sval b)) ∧
  (∀ a b r : Byte, subOverflow a b r = addOverflow a (~~~b) r)

/-- The spec's derivation R72 of spec/41_arithmetic.md: SUB's Carry is bit 8 of the wrapped difference at 9 bits and at
any wider precision, and the adder form `u(a) + u(~b) + 1` has the result as its low byte and the INVERSE of Carry as its
bit 8. -/
def Obligations.BorrowIsTheNinthBit : Prop :=
  ∀ (a b : Byte) (st : State), ∃ o : Outputs, exec (.sub a b) st = .next { st with out := o } ∧
    (o.flags.c = true ↔ 256 ≤ ((uval a : Int) - uval b) % 512) ∧
    (∀ p : Nat, 9 ≤ p → (diffAt p a b).getLsbD 8 = o.flags.c) ∧
    (uval a + uval (~~~b) + 1) % 256 = uval o.result ∧
    (uval a + uval (~~~b) + 1) / 256 = 1 - o.flags.c.toNat

/-- The identities of the spec's derivation R73 of spec/41_arithmetic.md, over all operands. -/
def Obligations.ArithmeticIdentities : Prop :=
  ∀ (a b : Byte) (st : State),
    (outputsOf (.add a 0x00#8) st).result = a ∧ (outputsOf (.add a 0x00#8) st).flags.c = false ∧
    (outputsOf (.add a 0x00#8) st).flags.v = false ∧
    (outputsOf (.sub a 0x00#8) st).result = a ∧ (outputsOf (.sub a 0x00#8) st).flags.c = false ∧
    (outputsOf (.sub a 0x00#8) st).flags.v = false ∧
    (outputsOf (.sub a a) st).result = 0x00#8 ∧
    (outputsOf (.sub (outputsOf (.add a b) st).result b) st).result = a

/-- The corner-case table R74 of spec/41_arithmetic.md, row by row (derived there from R65 to R68): `OUT` is
`{V, N, C, Z, result}`. -/
def Obligations.ArithmeticCornerTable : Prop :=
  ∀ st : State,
    (outputsOf (.add 0x00#8 0x00#8) st).vec = 0x100#12 ∧
    (outputsOf (.add 0xFF#8 0x01#8) st).vec = 0x300#12 ∧
    (outputsOf (.add 0x7F#8 0x01#8) st).vec = 0xC80#12 ∧
    (outputsOf (.add 0x80#8 0x80#8) st).vec = 0xB00#12 ∧
    (outputsOf (.add 0x80#8 0xFF#8) st).vec = 0xA7F#12 ∧
    (outputsOf (.add 0xFF#8 0xFF#8) st).vec = 0x6FE#12 ∧
    (outputsOf (.add 0x80#8 0x7F#8) st).vec = 0x4FF#12 ∧
    (outputsOf (.sub 0x00#8 0x00#8) st).vec = 0x100#12 ∧
    (outputsOf (.sub 0x0A#8 0x28#8) st).vec = 0x6E2#12 ∧
    (outputsOf (.sub 0x80#8 0x01#8) st).vec = 0x87F#12 ∧
    (outputsOf (.sub 0x7F#8 0xFF#8) st).vec = 0xE80#12 ∧
    (outputsOf (.sub 0x00#8 0x80#8) st).vec = 0xE80#12 ∧
    (outputsOf (.sub 0x00#8 0xFF#8) st).vec = 0x201#12 ∧
    (outputsOf (.sub 0xFF#8 0x7F#8) st).vec = 0x480#12

/-- The spec's derivation R75 of spec/41_arithmetic.md: after `SUB x, y`, `Z` is equality, `C` unsigned less-than and
`N ^ V` signed less-than; and `N` alone is not a signed comparison. -/
def Obligations.SubtractCompares : Prop :=
  (∀ (x y : Byte) (st : State), ∃ o : Outputs, exec (.sub x y) st = .next { st with out := o } ∧
    (o.flags.z = true ↔ x = y) ∧ (o.flags.c = true ↔ uval x < uval y) ∧
    ((o.flags.n ^^ o.flags.v) = true ↔ sval x < sval y)) ∧
  (∀ st : State, ∃ x y, sval x < sval y ∧ (outputsOf (.sub x y) st).flags.n = false)

/-- The spec's derivation R77 of spec/41_arithmetic.md: doubling by ADD and the left shift agree in the result, `C`, `Z`
and `N`, but ADD reports the signed overflow `a[7] ^ a[6]` where SLL always reports 0. -/
def Obligations.DoublingDiffersFromShiftInOverflow : Prop :=
  ∀ (a b : Byte) (st : State), ∃ o p : Outputs,
    exec (.add a a) st = .next { st with out := o } ∧ exec (.sll a b) st = .next { st with out := p } ∧
    uval o.result = 2 * uval a % 256 ∧ o.result = p.result ∧
    o.flags.c = a.getLsbD 7 ∧ o.flags.c = p.flags.c ∧ o.flags.z = p.flags.z ∧ o.flags.n = p.flags.n ∧
    o.flags.v = (a.getLsbD 7 ^^ a.getLsbD 6) ∧ p.flags.v = false

/-! ## Bitwise operations -/

/-- spec/42_logic.md R80, whole: encoding, result bit by bit and as a word, flags, corner cases, commutativity. -/
def Obligations.AndRule : Prop :=
  ∀ (a b : Byte) (st : State),
    decode (BitVec.ofNat 19 (0x20000 + uval a * 256 + uval b)) = .and a b ∧
    (∃ o : Outputs, exec (.and a b) st = .next { st with out := o } ∧
      o.result = a &&& b ∧ (∀ k, k < 8 → o.result.getLsbD k = (a.getLsbD k && b.getLsbD k)) ∧
      o.flags.c = false ∧ o.flags.v = false ∧ (o.flags.z = true ↔ o.result = 0x00#8) ∧
      o.flags.n = o.result.getLsbD 7 ∧ o.flags.n = (a.getLsbD 7 && b.getLsbD 7)) ∧
    (outputsOf (.and a 0x00#8) st).result = 0x00#8 ∧ (outputsOf (.and a 0xFF#8) st).result = a ∧
    (outputsOf (.and a a) st).result = a ∧ (outputsOf (.and 0xF0#8 0x0F#8) st).result = 0x00#8 ∧
    outputsOf (.and a b) st = outputsOf (.and b a) st

/-- spec/42_logic.md R81, whole: encoding, result bit by bit and as a word, flags, corner cases, commutativity. -/
def Obligations.OrRule : Prop :=
  ∀ (a b : Byte) (st : State),
    decode (BitVec.ofNat 19 (0x30000 + uval a * 256 + uval b)) = .or a b ∧
    (∃ o : Outputs, exec (.or a b) st = .next { st with out := o } ∧
      o.result = a ||| b ∧ (∀ k, k < 8 → o.result.getLsbD k = (a.getLsbD k || b.getLsbD k)) ∧
      o.flags.c = false ∧ o.flags.v = false ∧ (o.flags.z = true ↔ o.result = 0x00#8) ∧
      (o.flags.z = true ↔ a = 0x00#8 ∧ b = 0x00#8) ∧
      o.flags.n = o.result.getLsbD 7 ∧ o.flags.n = (a.getLsbD 7 || b.getLsbD 7)) ∧
    (outputsOf (.or a 0x00#8) st).result = a ∧ (outputsOf (.or a 0xFF#8) st).result = 0xFF#8 ∧
    (outputsOf (.or a 0xFF#8) st).flags.n = true ∧ (outputsOf (.or a a) st).result = a ∧
    outputsOf (.or a b) st = outputsOf (.or b a) st

/-- spec/42_logic.md R82, whole: encoding, result bit by bit and as a word, flags, corner cases, commutativity. -/
def Obligations.XorRule : Prop :=
  ∀ (a b : Byte) (st : State),
    decode (BitVec.ofNat 19 (0x40000 + uval a * 256 + uval b)) = .xor a b ∧
    (∃ o : Outputs, exec (.xor a b) st = .next { st with out := o } ∧
      o.result = a ^^^ b ∧ (∀ k, k < 8 → (o.result.getLsbD k = true ↔ a.getLsbD k ≠ b.getLsbD k)) ∧
      o.flags.c = false ∧ o.flags.v = false ∧ (o.flags.z = true ↔ o.result = 0x00#8) ∧
      (o.flags.z = true ↔ a = b) ∧
      o.flags.n = o.result.getLsbD 7 ∧ (o.flags.n = true ↔ a.getLsbD 7 ≠ b.getLsbD 7)) ∧
    (outputsOf (.xor a a) st).result = 0x00#8 ∧ (outputsOf (.xor a 0x00#8) st).result = a ∧
    (outputsOf (.xor a 0xFF#8) st).result = ~~~a ∧
    outputsOf (.xor a b) st = outputsOf (.xor b a) st

/-- The derived identities R49 of spec/30_encoding.md, with the flags the table says to expect: complement, negation,
pass through, constant zero, increment and decrement. -/
def Obligations.OperationsACallerComposes : Prop :=
  ∀ (x b : Byte) (st : State),
    ((outputsOf (.xor x 0xFF#8) st).result = ~~~x ∧ (outputsOf (.xor x 0xFF#8) st).flags.c = false ∧
      (outputsOf (.xor x 0xFF#8) st).flags.v = false) ∧
    ((outputsOf (.sub 0x00#8 x) st).result = -x ∧
      ((outputsOf (.sub 0x00#8 x) st).flags.c = true ↔ x ≠ 0x00#8) ∧
      ((outputsOf (.sub 0x00#8 x) st).flags.v = true ↔ x = 0x80#8)) ∧
    ((outputsOf (.or x 0x00#8) st).result = x ∧ (outputsOf (.or x 0x00#8) st).flags.c = false ∧
      (outputsOf (.or x 0x00#8) st).flags.v = false ∧
      outputsOf (.and x 0xFF#8) st = outputsOf (.or x 0x00#8) st ∧
      outputsOf (.add x 0x00#8) st = outputsOf (.or x 0x00#8) st) ∧
    (outputsOf (.xor x x) st = { result := 0x00#8, flags := { z := true, c := false, n := false, v := false } } ∧
      outputsOf (.and x 0x00#8) st = outputsOf (.xor x x) st ∧ outputsOf (.rsv7 x b) st = outputsOf (.xor x x) st) ∧
    (outputsOf (.add x 0x01#8) st).result = x + 1 ∧ (outputsOf (.sub x 0x01#8) st).result = x - 1

/-! ## Shifts -/

/-- spec/43_shift.md R90, whole: the encoding with any `b`, the result, Carry as the bit shifted out, Overflow 0, and the
corner cases of Zero and Negative. -/
def Obligations.SllRule : Prop :=
  ∀ (a b : Byte) (st : State),
    decode (BitVec.ofNat 19 (0x50000 + uval a * 256 + uval b)) = .sll a b ∧
    ∃ o : Outputs, exec (.sll a b) st = .next { st with out := o } ∧
      uval o.result = 2 * uval a % 256 ∧ (∀ k, k < 7 → o.result.getLsbD (k + 1) = a.getLsbD k) ∧
      o.result.getLsbD 0 = false ∧
      o.flags.c = a.getLsbD 7 ∧ o.flags.v = false ∧
      (o.flags.z = true ↔ o.result = 0x00#8) ∧ (o.flags.z = true ↔ a = 0x00#8 ∨ a = 0x80#8) ∧
      o.flags.n = o.result.getLsbD 7 ∧ o.flags.n = a.getLsbD 6

/-- spec/43_shift.md R91, whole: the encoding with any `b`, the result with bit 7 filled with 0, Carry as the bit shifted
out, Overflow 0, Negative 0 always, and the corner cases. -/
def Obligations.SrlRule : Prop :=
  ∀ (a b : Byte) (st : State),
    decode (BitVec.ofNat 19 (0x60000 + uval a * 256 + uval b)) = .srl a b ∧
    ∃ o : Outputs, exec (.srl a b) st = .next { st with out := o } ∧
      uval o.result = uval a / 2 ∧ (∀ k, k < 7 → o.result.getLsbD k = a.getLsbD (k + 1)) ∧
      o.result.getLsbD 7 = false ∧
      o.flags.c = a.getLsbD 0 ∧ o.flags.v = false ∧
      (o.flags.z = true ↔ o.result = 0x00#8) ∧ (o.flags.z = true ↔ a = 0x00#8 ∨ a = 0x01#8) ∧
      o.flags.n = o.result.getLsbD 7 ∧ o.flags.n = false ∧
      uval a = 2 * uval o.result + o.flags.c.toNat

/-- spec/43_shift.md R92: neither shift reads `b`, in all five outputs, also through the ports; and `b` is no shift
count. -/
def Obligations.ShiftsIgnoreB : Prop :=
  (∀ (a b b' : Byte) (st : State),
    outputsOf (.sll a b) st = outputsOf (.sll a b') st ∧ outputsOf (.srl a b) st = outputsOf (.srl a b') st) ∧
  (∀ (a b b' : Byte) (op : Selector) (st : State), op = 0b101#3 ∨ op = 0b110#3 → ∃ o : Outputs,
    step (st.drive (inVec op a b)) = .next { st.drive (inVec op a b) with out := o } ∧
    step (st.drive (inVec op a b')) = .next { st.drive (inVec op a b') with out := o }) ∧
  (∀ st : State, (outputsOf (.sll 0x01#8 0x03#8) st).result = 0x02#8)

/-- spec/43_shift.md R93: a shift never reports Overflow, even where a left shift changes the sign, as it does for some
value; ADD of a value to itself does report it there. -/
def Obligations.ShiftsNeverReportOverflow : Prop :=
  (∀ (a b : Byte) (st : State), ∃ o p : Outputs,
    exec (.sll a b) st = .next { st with out := o } ∧ exec (.srl a b) st = .next { st with out := p } ∧
    o.flags.v = false ∧ p.flags.v = false ∧
    (o.result.getLsbD 7 ≠ a.getLsbD 7 ↔ (outputsOf (.add a a) st).flags.v = true)) ∧
  (∀ st : State, outputsOf (.sll 0x81#8 0x00#8) st =
    { result := 0x02#8, flags := { z := false, c := true, n := false, v := false } })

/-- The spec's derivation R94 of spec/43_shift.md: eight successive left shifts, or eight successive right shifts, each
fed the previous result (and any `b`), end at 0 from any value. -/
def Obligations.EightShiftsClearAByte : Prop :=
  ∀ (a b : Byte) (st : State),
    (fun x => (outputsOf (.sll x b) st).result)^[8] a = 0x00#8 ∧
    (fun x => (outputsOf (.srl x b) st).result)^[8] a = 0x00#8

/-- The spec's derivation R97 of spec/43_shift.md: the shifts as multiplication and division by 2, and what each undoes
of the other. -/
def Obligations.ShiftsAsArithmetic : Prop :=
  ∀ (a b : Byte) (st : State), ∃ o p : Outputs,
    exec (.sll a b) st = .next { st with out := o } ∧ exec (.srl a b) st = .next { st with out := p } ∧
    uval o.result = 2 * uval a % 256 ∧ (o.flags.c = true ↔ 256 ≤ 2 * uval a) ∧
    uval p.result = uval a / 2 ∧ p.flags.c.toNat = uval a % 2 ∧
    (outputsOf (.srl o.result b) st).result = a &&& 0x7F#8 ∧
    (outputsOf (.sll p.result b) st).result = a &&& 0xFE#8

/-! ## Sequences of evaluations -/

/-- Independence (spec/20_memory.md section 6): in any sequence of driven input vectors the outputs are, vector by
vector, those of the pseudocode of R55; they do not depend on what stood before; and applying the vectors in another order
gives each the same outputs. -/
def Obligations.EvaluationsAreIndependent : Prop :=
  (∀ (vs : List InVec) (st : State),
    evaluateSeq vs st = vs.map (fun v => evaluate (aField v) (bField v) (opField v))) ∧
  (∀ (vs ws : List InVec) (st st' : State), vs.Perm ws →
    (vs.zip (evaluateSeq vs st)).Perm (ws.zip (evaluateSeq ws st')))

/-- Evaluating again with the same inputs changes nothing (spec/20_memory.md section 4): any number of further steps of
the machine ends where the first did. -/
def Obligations.EvaluatingAgainChangesNothing : Prop :=
  ∀ (k : Nat) (st : State), Sys2Proof.core.run (k + 1) st = step st

/-! ## Outputs between evaluations -/

/-- The spec's derivation R126 of spec/70_reset_and_hazards.md: outputs are not held. When the caller puts any input
vector on the ports, in whatever state and whatever outputs stood there, the outputs are those of the new inputs (by the
integer table); the previous outputs are gone, so that driven states do not differ by them; the same where one input alone
changes; and evaluating what is driven changes nothing any more. That no moment lies between the change and the outputs is
the zero-delay reading of R119 (decision D9, log entry 4). -/
def Obligations.OutputsFollowTheInputs : Prop :=
  (∀ (st : State) (v : InVec),
    (st.drive v).inputs = v ∧ Settled (st.drive v) ∧ step (st.drive v) = .next (st.drive v) ∧
    ∀ before : Outputs, ({ st with out := before } : State).drive v = st.drive v) ∧
  (∀ (st : State) (op : Selector) (a b : Byte),
    (st.drive (inVec op st.a st.b)).out = evaluate st.a st.b op ∧
    (st.drive (inVec st.op a st.b)).out = evaluate a st.b st.op ∧
    (st.drive (inVec st.op st.a b)).out = evaluate st.a b st.op)
end

