-- ==== Sys2Proof/Laws/State.lean ====
section
/-! SUPPORT. One lemma per field of the state and of the outputs for each update, so that no proof unfolds a record
update. -/

namespace Sys2Proof.Machine

section Present
variable (st : State) (o p : Outputs)

@[simp] theorem State.present_op : (st.present o).op = st.op := rfl
@[simp] theorem State.present_a : (st.present o).a = st.a := rfl
@[simp] theorem State.present_b : (st.present o).b = st.b := rfl
@[simp] theorem State.present_out : (st.present o).out = o := rfl
@[simp] theorem State.present_present : (st.present o).present p = st.present p := rfl
@[simp] theorem State.present_inputs : (st.present o).inputs = st.inputs := rfl
@[simp] theorem State.fetch_present : fetch (st.present o) = fetch st := rfl

end Present

section WithInputs
variable (st : State) (v w : InVec) (o : Outputs)

@[simp] theorem State.withInputs_op : (st.withInputs v).op = opField v := rfl
@[simp] theorem State.withInputs_a : (st.withInputs v).a = aField v := rfl
@[simp] theorem State.withInputs_b : (st.withInputs v).b = bField v := rfl
@[simp] theorem State.withInputs_out : (st.withInputs v).out = st.out := rfl
@[simp] theorem State.withInputs_withInputs : (st.withInputs v).withInputs w = st.withInputs w := rfl
@[simp] theorem State.withInputs_present : (st.present o).withInputs v = (st.withInputs v).present o := rfl

end WithInputs

section Drive
variable (st : State) (v : InVec)

@[simp] theorem State.follow_op : st.follow.op = st.op := rfl
@[simp] theorem State.follow_a : st.follow.a = st.a := rfl
@[simp] theorem State.follow_b : st.follow.b = st.b := rfl
@[simp] theorem State.follow_out : st.follow.out = outputsOf (fetch st) st := rfl
@[simp] theorem State.drive_op : (st.drive v).op = opField v := rfl
@[simp] theorem State.drive_a : (st.drive v).a = aField v := rfl
@[simp] theorem State.drive_b : (st.drive v).b = bField v := rfl
@[simp] theorem State.drive_out : (st.drive v).out = outputsOf (fetch (st.withInputs v)) (st.withInputs v) := rfl

end Drive

section Branch
variable (o : Outputs) (r : Byte) (c v : Bool)

@[simp] theorem Outputs.branch_result : (o.branch r c v).result = r := rfl
@[simp] theorem Outputs.branch_c : (o.branch r c v).flags.c = c := rfl
@[simp] theorem Outputs.branch_v : (o.branch r c v).flags.v = v := rfl
@[simp] theorem Outputs.branch_z : (o.branch r c v).flags.z = o.flags.z := rfl
@[simp] theorem Outputs.branch_n : (o.branch r c v).flags.n = o.flags.n := rfl

end Branch

section CommonFlags
variable (o : Outputs)

@[simp] theorem Outputs.withCommonFlags_result : o.withCommonFlags.result = o.result := rfl
@[simp] theorem Outputs.withCommonFlags_c : o.withCommonFlags.flags.c = o.flags.c := rfl
@[simp] theorem Outputs.withCommonFlags_v : o.withCommonFlags.flags.v = o.flags.v := rfl
@[simp] theorem Outputs.withCommonFlags_z : o.withCommonFlags.flags.z = zeroFlag o.result := rfl
@[simp] theorem Outputs.withCommonFlags_n : o.withCommonFlags.flags.n = negativeFlag o.result := rfl

end CommonFlags

end Sys2Proof.Machine
end

