-- ==== Sys2Proof/Laws/Ops.lean ====
section
/-! SUPPORT. What each shared operation and each meaning can do, said once; later proofs cite these and unfold nothing. -/

namespace Sys2Proof.Laws

open Sys2Proof.Machine

/-- An evaluation ends in exactly one way. -/
theorem finish_next_iff (o : Outputs) (st t : State) :
    finish o st = .next t ↔ t = st.present o.withCommonFlags := by
  constructor
  · intro h
    injection h with h
    exact h.symm
  · rintro rfl
    rfl

/-- What a step can do, and all it can do: it answers the state whose outputs follow its inputs. -/
theorem step_eq_follow (st : State) : step st = .next st.follow := by
  have hexec : ∀ i : Instr, exec i st = .next (st.present (outputsOf i st)) := by
    intro i
    cases i <;> rfl
  exact hexec (fetch st)

/-- The outputs of an instruction do not depend on the state it is evaluated in. -/
theorem outputsOf_any_state (i : Instr) (st st' : State) : outputsOf i st = outputsOf i st' := by
  cases i <;> rfl

/-- The signed reading of the spec is the two's-complement reading of the library. -/
theorem sval_eq_toInt (v : Byte) : sval v = v.toInt := by
  have hlt : v.toNat < 256 := v.isLt
  have hmsb : v.getLsbD 7 = decide (128 ≤ v.toNat) := by
    have := BitVec.msb_eq_decide v
    simpa [BitVec.msb_eq_getLsbD_last] using this
  by_cases h : 128 ≤ v.toNat
  · simp only [sval, uval, hmsb, BitVec.toInt]
    simp [h]
    omega
  · simp only [sval, uval, hmsb, BitVec.toInt]
    simp [h]
    omega

/-- The listing of the operations leaves none out and repeats none. -/
theorem mem_operations (o : Operation) : o ∈ Operation.all := by
  cases o <;> decide

theorem operations_listing : Operation.all.Nodup ∧ Operation.all.length = Config.NOPS := by decide

/-- A bit of a word, read off its number. -/
theorem getLsbD_eq_decide {w : Nat} (t : BitVec w) (k : Nat) : t.getLsbD k = decide (t.toNat / 2 ^ k % 2 = 1) := by
  simp [BitVec.getLsbD, Nat.testBit_eq_decide_div_mod_eq]

/-- The sign bit of a byte, read off its number. -/
theorem signBit_eq_decide (v : Byte) : v.getLsbD 7 = decide (128 ≤ v.toNat) := by
  have hlt : v.toNat < 256 := v.isLt
  rw [getLsbD_eq_decide, decide_eq_decide]
  omega

theorem zeroFlag_iff (r : Byte) : zeroFlag r = true ↔ r.toNat = 0 := by
  rw [zeroFlag, beq_iff_eq]
  constructor
  · rintro rfl
    rfl
  · intro h
    exact BitVec.eq_of_toNat_eq h

section Intermediates
variable {p : Nat} (hp : 9 ≤ p) (a b : Byte)
include hp

theorem two_pow_precision : 512 ≤ 2 ^ p :=
  Nat.pow_le_pow_right (n := 2) (by decide) hp

/-- Nothing is lost by zero extension to at least 9 bits. -/
theorem toNat_zext : (zext p a).toNat = a.toNat := by
  have hpow := two_pow_precision hp
  have ha : a.toNat < 256 := a.isLt
  rw [zext, BitVec.toNat_setWidth, Nat.mod_eq_of_lt (by omega)]

theorem toNat_sumAt : (sumAt p a b).toNat = a.toNat + b.toNat := by
  have hpow := two_pow_precision hp
  have ha : a.toNat < 256 := a.isLt
  have hb : b.toNat < 256 := b.isLt
  rw [sumAt, BitVec.toNat_add, toNat_zext hp, toNat_zext hp, Nat.mod_eq_of_lt (by omega)]

theorem toNat_diffAt :
    (diffAt p a b).toNat = if b.toNat ≤ a.toNat then a.toNat - b.toNat else 2 ^ p - (b.toNat - a.toNat) := by
  have hpow := two_pow_precision hp
  have ha : a.toNat < 256 := a.isLt
  have hb : b.toNat < 256 := b.isLt
  rw [diffAt, BitVec.toNat_sub, toNat_zext hp, toNat_zext hp]
  generalize 2 ^ p = m at hpow
  split
  · rw [show m - b.toNat + a.toNat = (a.toNat - b.toNat) + m by omega, Nat.add_mod_right, Nat.mod_eq_of_lt (by omega)]
  · rw [Nat.mod_eq_of_lt (by omega)]
    omega

theorem toNat_shiftedLeftAt : (shiftedLeftAt p a).toNat = 2 * a.toNat := by
  have hpow := two_pow_precision hp
  have ha : a.toNat < 256 := a.isLt
  rw [shiftedLeftAt, BitVec.toNat_shiftLeft, toNat_zext hp, Nat.shiftLeft_eq, Nat.pow_one, Nat.mod_eq_of_lt (by omega)]
  omega

end Intermediates

section Meanings
variable (a b : Byte) (st : State)

theorem execAdd_eq : execAdd a b st = .next (st.present (addBranch Config.IPREC a b).withCommonFlags) := rfl
theorem execSub_eq : execSub a b st = .next (st.present (subBranch Config.IPREC a b).withCommonFlags) := rfl
theorem execAnd_eq : execAnd a b st = .next (st.present (bitwiseBranch (a &&& b)).withCommonFlags) := rfl
theorem execOr_eq : execOr a b st = .next (st.present (bitwiseBranch (a ||| b)).withCommonFlags) := rfl
theorem execXor_eq : execXor a b st = .next (st.present (bitwiseBranch (a ^^^ b)).withCommonFlags) := rfl
theorem execSll_eq : execSll a st = .next (st.present (sllBranch Config.IPREC a).withCommonFlags) := rfl
theorem execSrl_eq : execSrl a st = .next (st.present (srlBranch a).withCommonFlags) := rfl
theorem execRsv7_eq : execRsv7 st = .next (st.present Outputs.initial.withCommonFlags) := rfl

end Meanings

section Fields
variable (op : Selector) (a b : Byte)

/-- Which port a bit of the input vector stands for. -/
theorem getLsbD_inVec (k : Nat) :
    (inVec op a b).getLsbD k =
      if k < 8 then b.getLsbD k else if k < 16 then a.getLsbD (k - 8) else op.getLsbD (k - 16) := by
  change BitVec.getLsbD (w := 3 + 8 + 8) (op ++ a ++ b) k = _
  rw [BitVec.getLsbD_append, BitVec.getLsbD_append]
  have hsub : k - 8 - 8 = k - 16 := by omega
  have hlt : k - 8 < 8 ↔ k < 16 := by omega
  simp only [hsub, hlt]

/-- The three fields of an input vector read back: a mistake in one field's place breaks one of these. -/
theorem opField_inVec : opField (inVec op a b) = op := by
  ext i hi
  have h8 : ¬ 16 + i < 8 := by omega
  have h16 : ¬ 16 + i < 16 := by omega
  simp [opField, getLsbD_inVec, h8, hi, BitVec.getLsbD_eq_getElem]

theorem aField_inVec : aField (inVec op a b) = a := by
  ext i hi
  have h16 : 8 + i < 16 := by omega
  simp [aField, getLsbD_inVec, h16, hi, BitVec.getLsbD_eq_getElem]

theorem bField_inVec : bField (inVec op a b) = b := by
  ext i hi
  simp [bField, getLsbD_inVec, hi, BitVec.getLsbD_eq_getElem]

end Fields

end Sys2Proof.Laws
end

