-- ==== Sys2Proof/Laws/PerInstr.lean ====
section
/-! SUPPORT. Facts of every instruction as syntax, one lemma per constructor. -/

namespace Sys2Proof.Laws

/-- The operand type holds no value that does not fit its port. -/
theorem Instr.wellFormed_all (i : Instr) : i.wellFormed = true := by
  have ha : i.operandA.toNat < 2 ^ 8 := i.operandA.isLt
  have hb : i.operandB.toNat < 2 ^ 8 := i.operandB.isLt
  simp [Instr.wellFormed, operandFits, ha, hb]

namespace TableRow

/-- The `match` column of spec/opcode_table.json. -/
def rowMatch : Instr → InVec
  | .add _ _ => 0x00000#19
  | .sub _ _ => 0x10000#19
  | .and _ _ => 0x20000#19
  | .or _ _ => 0x30000#19
  | .xor _ _ => 0x40000#19
  | .sll _ _ => 0x50000#19
  | .srl _ _ => 0x60000#19
  | .rsv7 _ _ => 0x70000#19

/-- The instruction is well formed, and its word is its table row's `match` under the row's `mask`, with the operands in
their fields. -/
def Statement (i : Instr) : Prop :=
  i.wellFormed = true ∧ encode i &&& 0x70000#19 = rowMatch i ∧
    aField (encode i) = i.operandA ∧ bField (encode i) = i.operandB

/-- The mask keeps the selector field alone. -/
theorem inVec_and_mask (op : Selector) (a b : Byte) :
    inVec op a b &&& 0x70000#19 = inVec op 0x00#8 0x00#8 := by
  apply BitVec.eq_of_getLsbD_eq
  intro i hi
  rw [BitVec.getLsbD_and, getLsbD_inVec, getLsbD_inVec]
  by_cases h : i < 16
  · have hmask : (0x70000#19).getLsbD i = false := by interval_cases i <;> rfl
    simp [h, hmask]
  · have hmask : (0x70000#19).getLsbD i = true := by interval_cases i <;> rfl
    have h8 : ¬ i < 8 := by omega
    simp [h, h8, hmask]

/-- What every row shares: only the selector code tells rows apart. -/
theorem of_code (i : Instr) (code : Selector) (hcode : selectorOfWith Config.SEL i = code)
    (hrow : inVec code 0x00#8 0x00#8 = rowMatch i) : Statement i := by
  refine ⟨Instr.wellFormed_all i, ?_, aField_inVec _ _ _, bField_inVec _ _ _⟩
  rw [encode, encodeWith, inVec_and_mask, hcode, hrow]

theorem add (a b : Byte) : Statement (.add a b) := of_code _ 0b000#3 rfl (by decide : inVec _ _ _ = 0x00000#19)
theorem sub (a b : Byte) : Statement (.sub a b) := of_code _ 0b001#3 rfl (by decide : inVec _ _ _ = 0x10000#19)
theorem and (a b : Byte) : Statement (.and a b) := of_code _ 0b010#3 rfl (by decide : inVec _ _ _ = 0x20000#19)
theorem or (a b : Byte) : Statement (.or a b) := of_code _ 0b011#3 rfl (by decide : inVec _ _ _ = 0x30000#19)
theorem xor (a b : Byte) : Statement (.xor a b) := of_code _ 0b100#3 rfl (by decide : inVec _ _ _ = 0x40000#19)
theorem sll (a b : Byte) : Statement (.sll a b) := of_code _ 0b101#3 rfl (by decide : inVec _ _ _ = 0x50000#19)
theorem srl (a b : Byte) : Statement (.srl a b) := of_code _ 0b110#3 rfl (by decide : inVec _ _ _ = 0x60000#19)
theorem rsv7 (a b : Byte) : Statement (.rsv7 a b) :=
  of_code _ 0b111#3 (by decide : unassignedWith Config.SEL = 0b111#3) (by decide : inVec _ _ _ = 0x70000#19)

end TableRow

end Sys2Proof.Laws
end

