-- ==== Sys2Proof/Tests/Slice0.lean ====
section
/-! SUPPORT. Tests of one decoding or one step each, with expected values from the spec's own tables; the smoke tests of
the checks; and the witnesses that the hypotheses of the statements can be met. -/

namespace Sys2Proof.Tests

open Sys2Proof.Machine Sys2Proof.Safety

/-! ## Well-formedness: one ill-formed request for each check -/

theorem test_wellFormed_accepts_largest : (⟨7, 255, 255⟩ : Request).wellFormed = true := by decide
theorem test_wellFormed_refuses_selector_8 : (⟨8, 0, 0⟩ : Request).wellFormed = false := by decide
theorem test_wellFormed_refuses_a_256 : (⟨0, 256, 0⟩ : Request).wellFormed = false := by decide
theorem test_wellFormed_refuses_b_256 : (⟨0, 0, 256⟩ : Request).wellFormed = false := by decide

/-! ## Decoding: words written out from spec/30_encoding.md R43 and R46, operands from spec/95_test_vectors.md -/

theorem test_decode_add : decode 0b0001111111100000001#19 = .add 0xFF#8 0x01#8 := by decide
theorem test_decode_sub : decode 0b0010000101000101000#19 = .sub 0x0A#8 0x28#8 := by decide
theorem test_decode_and : decode 0b0100011110000001111#19 = .and 0x3C#8 0x0F#8 := by decide
theorem test_decode_or : decode 0b0110011110000001111#19 = .or 0x3C#8 0x0F#8 := by decide
theorem test_decode_xor : decode 0b1000011110000001111#19 = .xor 0x3C#8 0x0F#8 := by decide
theorem test_decode_sll : decode 0b1011000000100000000#19 = .sll 0x81#8 0x00#8 := by decide
theorem test_decode_srl : decode 0b1100000001100000000#19 = .srl 0x03#8 0x00#8 := by decide
theorem test_decode_rsv7 : decode 0b1110001001000110100#19 = .rsv7 0x12#8 0x34#8 := by decide

/-- spec/30_encoding.md R46: "Subtract with `a = 10`, `b = 40` is `IN = 0x10A28`". -/
theorem test_encode_sub : encode (.sub 10#8 40#8) = 0x10A28#19 := by decide

theorem test_table_word : decodeTableWord 24 0x58100 = some (.sll 0x81#8 0x00#8) := by decide
theorem test_bytes_refuse_bit_19 : decodeBytes [0x00#8, 0x00#8, 0x08#8] = .error .noSuchPort := rfl
theorem test_bytes_refuse_two_bytes : decodeBytes [0x00#8, 0x00#8] = .error .notThreeBytes := rfl

/-! ## One step: `IN` and `OUT` columns of spec/95_test_vectors.md sections 1 and 2 -/

/-- The output vector after one step on an input vector, from a state whose outputs disagree with it, every flag set. -/
def outAfter (v : InVec) : Option OutVec :=
  let dirty : State :=
    { State.reset with out := { result := 0x5A#8, flags := { z := true, c := true, n := true, v := true } } }
  match step (dirty.withInputs v) with
  | .next t => some t.out.vec
  | .fault _ => none
  | .refused _ => none

theorem test_add_carry_S1 : outAfter 0x0FF01#19 = some 0x300#12 := by decide
theorem test_add_overflow_S2 : outAfter 0x07F01#19 = some 0xC80#12 := by decide
theorem test_sub_borrow_S3 : outAfter 0x10A28#19 = some 0x6E2#12 := by decide
theorem test_sub_overflow_S4 : outAfter 0x18001#19 = some 0x87F#12 := by decide
theorem test_and_disjoint : outAfter 0x2F00F#19 = some 0x100#12 := by decide
theorem test_and_sign : outAfter 0x28080#19 = some 0x480#12 := by decide
theorem test_or_mixed : outAfter 0x33C0F#19 = some 0x03F#12 := by decide
theorem test_or_sign : outAfter 0x38000#19 = some 0x480#12 := by decide
theorem test_xor_mixed : outAfter 0x43C0F#19 = some 0x033#12 := by decide
theorem test_xor_equal : outAfter 0x45A5A#19 = some 0x100#12 := by decide
theorem test_sll_S5 : outAfter 0x58100#19 = some 0x202#12 := by decide
theorem test_sll_b_is_no_count : outAfter 0x50103#19 = some 0x002#12 := by decide
theorem test_srl_S6 : outAfter 0x60300#19 = some 0x201#12 := by decide
theorem test_srl_is_logical : outAfter 0x68100#19 = some 0x240#12 := by decide
theorem test_rsv7 : outAfter 0x71234#19 = some 0x100#12 := by decide

/-- spec/95_test_vectors.md P6 steps 1 and 2: the Carry of step 1 is gone as soon as step 2's inputs are driven
(spec/70_reset_and_hazards.md R126). -/
theorem test_driven_outputs_follow :
    (State.reset.drive 0x0FF01#19).out.vec = 0x300#12 ∧
    ((State.reset.drive 0x0FF01#19).drive 0x2FF0F#19).out.vec = 0x00F#12 := by decide

/-- spec/70_reset_and_hazards.md R116. -/
theorem test_reset_out : State.reset.out.vec = 0x100#12 := by decide

/-! ## Witnesses: the hypotheses of the statements can be met -/

/-- A second numbering by distinct codes, with code 0 unassigned. -/
def shiftedNumbering : Operation → Selector
  | .add => 1
  | .subtract => 2
  | .bitwiseAnd => 3
  | .bitwiseOr => 4
  | .bitwiseXor => 5
  | .shiftLeftLogical => 6
  | .shiftRightLogical => 7

theorem witness_numbering_SEL : Function.Injective Config.SEL := by
  intro o p
  cases o <;> cases p <;> decide

theorem witness_numbering_shifted : Function.Injective shiftedNumbering := by
  intro o p
  cases o <;> cases p <;> decide

theorem witness_shifted_reserved : decodeWith shiftedNumbering 0x0ABCD#19 = .rsv7 0xAB#8 0xCD#8 := by decide

theorem witness_request : (⟨7, 255, 255⟩ : Request).wellFormed = true ∧ (⟨0, 0, 0⟩ : Request).wellFormed = true := by
  decide

theorem witness_decoded_instruction :
    decode (inVec State.reset.op State.reset.a State.reset.b) = .add 0x00#8 0x00#8 := by decide

theorem witness_table_word :
    decodeTableWord 24 0x7FFFF = some (.rsv7 0xFF#8 0xFF#8) ∧ decodeTableWord 24 0 = some (.add 0x00#8 0x00#8) := by
  decide

/-- A settled state other than reset, and its step. -/
def settledState : State where
  op := 0b001#3
  a := 0x0A#8
  b := 0x28#8
  out := { result := 0xE2#8, flags := { z := false, c := true, n := true, v := false } }

theorem witness_settled : Settled settledState ∧ step settledState = .next settledState := by
  have hi : fetch settledState = .sub 0x0A#8 0x28#8 := by decide
  constructor
  · unfold Settled
    rw [hi]
    exact ⟨by decide, by decide, by decide, by decide, by decide⟩
  · unfold step
    rw [hi]
    exact congrArg Host.Outcome.next (by decide)

theorem witness_flag_clauses :
    (∃ a b, Instr.rsv7 0xFF#8 0xFF#8 = .and a b ∨ Instr.rsv7 0xFF#8 0xFF#8 = .or a b ∨
      Instr.rsv7 0xFF#8 0xFF#8 = .xor a b ∨ Instr.rsv7 0xFF#8 0xFF#8 = .rsv7 a b) ∧
    (outputsOf (.add 0x7F#8 0x01#8) State.reset).flags.v = true := by
  exact ⟨⟨0xFF#8, 0xFF#8, .inr (.inr (.inr rfl))⟩, by decide⟩

theorem witness_precision : 9 ≤ Config.IPREC ∧ 9 ≤ 32 := by decide

theorem witness_overflow_clauses :
    (outputsOf (.add 0x80#8 0x7F#8) State.reset).flags.v = false ∧
    (outputsOf (.add 0x80#8 0x80#8) State.reset).flags.v = true ∧
    (outputsOf (.sub 0xFF#8 0x7F#8) State.reset).flags.v = false := by decide

theorem witness_helper_clauses :
    (outputsOf (.sub 0x80#8 0x01#8) State.reset).flags.v = true ∧ ∀ a b, Instr.sub 0x80#8 0x01#8 ≠ .add a b :=
  ⟨by decide, fun _ _ h => nomatch h⟩

theorem witness_bit_numbers : 0 < 7 ∧ 6 < 7 ∧ 7 < 8 := by decide

theorem witness_shift_codes :
    (0b101#3 = 0b101#3 ∨ 0b101#3 = 0b110#3) ∧ (0b110#3 = 0b101#3 ∨ 0b110#3 = 0b110#3) := by decide

theorem witness_reordered : [0x0FF01#19, 0x2FF0F#19].Perm [0x2FF0F#19, 0x0FF01#19] := by decide

end Sys2Proof.Tests
end

section
/-! PROOFS of spec/30_encoding.md. An instruction is its operation and its operands, an input vector is its three fields,
so both round trips come down to what the numbering does on selector codes. -/

namespace Sys2Proof

open Sys2Proof.Machine Sys2Proof.Laws

section OfOperation
variable (o : Option Operation) (a b : Byte)

@[simp] theorem Instr.operation_ofOperation : (Instr.ofOperation o a b).operation = o := by
  rcases o with _ | o
  · rfl
  · cases o <;> rfl

@[simp] theorem Instr.operandA_ofOperation : (Instr.ofOperation o a b).operandA = a := by
  rcases o with _ | o
  · rfl
  · cases o <;> rfl

@[simp] theorem Instr.operandB_ofOperation : (Instr.ofOperation o a b).operandB = b := by
  rcases o with _ | o
  · rfl
  · cases o <;> rfl

end OfOperation

theorem Instr.ofOperation_operation (i : Instr) : Instr.ofOperation i.operation i.operandA i.operandB = i := by
  cases i <;> rfl

/-- The three fields are the whole input vector (spec/30_encoding.md R40). -/
@[simp] theorem inVec_fields (v : InVec) : inVec (opField v) (aField v) (bField v) = v := by
  apply BitVec.eq_of_getLsbD_eq
  intro k hk
  rw [getLsbD_inVec]
  by_cases h8 : k < 8
  · simp [h8, bField]
  · by_cases h16 : k < 16
    · have hbit : k - 8 < 8 := by omega
      have hplace : 8 + (k - 8) = k := by omega
      simp [h8, h16, aField, hbit, hplace]
    · have hbit : k - 16 < 3 := by omega
      have hplace : 16 + (k - 16) = k := by omega
      simp [h8, h16, opField, hbit, hplace]

section Numbering
variable {sel : Operation → Selector}

/-- The operands play no part in the selector code. -/
theorem selectorOfWith_congr {i j : Instr} (h : i.operation = j.operation) :
    selectorOfWith sel i = selectorOfWith sel j := by
  rw [selectorOfWith, selectorOfWith, h]

/-- Decoding undoes encoding where the numbering reads an instruction's code as its operation. -/
theorem decodeWith_encodeWith (hsel : ∀ i, operationOfWith sel (selectorOfWith sel i) = i.operation) (i : Instr) :
    decodeWith sel (encodeWith sel i) = i := by
  rw [decodeWith, encodeWith, opField_inVec, aField_inVec, bField_inVec, hsel, Instr.ofOperation_operation]

/-- Encoding undoes decoding where the numbering gives back the code an operation was read from. -/
theorem encodeWith_decodeWith
    (hsel : ∀ code a b, selectorOfWith sel (Instr.ofOperation (operationOfWith sel code) a b) = code) (v : InVec) :
    encodeWith sel (decodeWith sel v) = v := by
  rw [encodeWith, decodeWith, hsel, Instr.operandA_ofOperation, Instr.operandB_ofOperation, inVec_fields]

end Numbering

theorem operationOf_selectorOf (i : Instr) :
    operationOfWith Config.SEL (selectorOfWith Config.SEL i) = i.operation := by
  cases i <;> rfl

theorem selectorOf_operationOf (code : Selector) (a b : Byte) :
    selectorOfWith Config.SEL (Instr.ofOperation (operationOfWith Config.SEL code) a b) = code := by
  have hzero : ∀ c : Selector,
      selectorOfWith Config.SEL (Instr.ofOperation (operationOfWith Config.SEL c) 0x00#8 0x00#8) = c := by decide
  rw [selectorOfWith_congr (j := Instr.ofOperation (operationOfWith Config.SEL code) 0x00#8 0x00#8) (by simp), hzero]

theorem decode_encode (i : Instr) : decode (encode i) = i := decodeWith_encodeWith operationOf_selectorOf i

theorem encode_decode (v : InVec) : encode (decode v) = v := encodeWith_decodeWith selectorOf_operationOf v

/-- The driven vector stands on the ports, so it is the one the block reads (spec/10_state.md R24). -/
@[simp] theorem Machine.State.fetch_drive (st : State) (v : InVec) : fetch (st.drive v) = decode v :=
  congrArg decode (inVec_fields v)

/-- A step on a driven vector presents the outputs of the decoded instruction, the same from every state. -/
theorem step_drive (st st' : State) (v : InVec) :
    step (st.drive v) = .next ((st.drive v).present (outputsOf (decode v) st')) := by
  rw [step_eq_follow, State.follow, State.fetch_drive, outputsOf_any_state (decode v) _ st']

/-- Settles O4: the two round trips give the one instruction, and `step_drive` the one output vector. -/
theorem everyInputVectorHasOneMeaning : Obligations.EveryInputVectorHasOneMeaning := by
  unfold Obligations.EveryInputVectorHasOneMeaning
  intro v
  refine ⟨⟨decode v, encode_decode v, ?_⟩, encode_decode v,
    (outputsOf (decode v) State.reset).vec, fun st => ⟨_, step_drive st State.reset v, rfl⟩, ?_⟩
  · rintro i rfl
    exact (decode_encode i).symm
  · intro out hout
    obtain ⟨o, hstep, hvec⟩ := hout State.reset
    rw [step_drive State.reset State.reset v] at hstep
    injection hstep with hnext
    have ho : outputsOf (decode v) State.reset = o := congrArg State.out hnext
    rw [← hvec, ho]

end Sys2Proof
end

section
/-! PROOFS of spec/40_evaluation.md. An evaluation is the three parts of R55: `branchOf` names what parts 1 and 2 leave for
each instruction, and `exec_eq_branchOf` says once that the common flags (part 3) are then computed over it and presented.
Every statement about all instructions is read off that equation. -/

namespace Sys2Proof

open Sys2Proof.Machine Sys2Proof.Laws Sys2Proof.Safety

/-- Parts 1 and 2 of an evaluation (spec/40_evaluation.md R55): what an instruction hands to the common flags. -/
def Machine.branchOf : Instr → Outputs
  | .add a b => addBranch Config.IPREC a b
  | .sub a b => subBranch Config.IPREC a b
  | .and a b => bitwiseBranch (a &&& b)
  | .or a b => bitwiseBranch (a ||| b)
  | .xor a b => bitwiseBranch (a ^^^ b)
  | .sll a _ => sllBranch Config.IPREC a
  | .srl a _ => srlBranch a
  | .rsv7 _ _ => Outputs.initial

/-- Every instruction completes, and presents the common flags over its branch. -/
theorem exec_eq_branchOf (i : Instr) (st : State) : exec i st = .next (st.present (branchOf i).withCommonFlags) := by
  cases i with
  | add a b => exact execAdd_eq a b st
  | sub a b => exact execSub_eq a b st
  | and a b => exact execAnd_eq a b st
  | or a b => exact execOr_eq a b st
  | xor a b => exact execXor_eq a b st
  | sll a _ => exact execSll_eq a st
  | srl a _ => exact execSrl_eq a st
  | rsv7 _ _ => exact execRsv7_eq st

theorem outputsOf_eq_branchOf (i : Instr) (st : State) : outputsOf i st = (branchOf i).withCommonFlags := by
  simp only [outputsOf, exec_eq_branchOf, State.present_out]

/-! ## Flags -/

theorem zeroFlag_eq_true_iff (r : Byte) : zeroFlag r = true ↔ r = 0x00#8 := beq_iff_eq

/-- Only the two arithmetic branches write an Overflow that is not 0 (spec/40_evaluation.md R63). -/
theorem arithmetic_of_branchOf_v {i : Instr} (h : (branchOf i).flags.v = true) :
    ∃ a b, i = .add a b ∨ i = .sub a b := by
  cases i with
  | add a b => exact ⟨a, b, .inl rfl⟩
  | sub a b => exact ⟨a, b, .inr rfl⟩
  | and | or | xor | sll | srl | rsv7 => exact absurd h Bool.false_ne_true

/-- Settles O15: Zero is computed last, of the byte (`exec_eq_branchOf`); the two examples are evaluated. -/
theorem zeroFlagIsOfTheByte : Obligations.ZeroFlagIsOfTheByte := by
  unfold Obligations.ZeroFlagIsOfTheByte
  refine ⟨fun i st => ⟨_, exec_eq_branchOf i st, zeroFlag_eq_true_iff _⟩, fun st => ⟨?_, fun b => ?_⟩⟩
  · rw [outputsOf_eq_branchOf]
    decide
  · rw [outputsOf_eq_branchOf, branchOf]
    decide

/-- Settles O17: `withCommonFlags` reads only the result, Carry and Overflow; and it is the last thing every evaluation
does. -/
theorem commonFlagsOverwriteBranchState : Obligations.CommonFlagsOverwriteBranchState := by
  unfold Obligations.CommonFlagsOverwriteBranchState
  refine ⟨fun o z n => ⟨rfl, o.withCommonFlags_c, o.withCommonFlags_v, o.withCommonFlags_result⟩, fun i st =>
    ⟨_, exec_eq_branchOf i st, zeroFlag_eq_true_iff _, (branchOf i).withCommonFlags_n⟩⟩

/-- Settles O18: Carry and Overflow are those of the branch; `0x7F + 0x01` and `0x80 - 0x01` overflow. -/
theorem uncomputedFlagsAreDrivenToZero : Obligations.UncomputedFlagsAreDrivenToZero := by
  unfold Obligations.UncomputedFlagsAreDrivenToZero
  refine ⟨fun i st => ⟨_, exec_eq_branchOf i st, ?_, arithmetic_of_branchOf_v⟩, fun st => ?_⟩
  · rintro ⟨a, b, rfl | rfl | rfl | rfl⟩ <;> rfl
  · simp only [outputsOf_eq_branchOf]
    exact ⟨⟨0x7F#8, 0x01#8, by decide⟩, ⟨0x80#8, 0x01#8, by decide⟩⟩

/-! ## One evaluation -/

/-- Settles O20: neither `branchOf` nor `withCommonFlags` takes the state. -/
theorem evaluationHasNoSideEffect : Obligations.EvaluationHasNoSideEffect := by
  unfold Obligations.EvaluationHasNoSideEffect
  exact fun i st st' => ⟨_, exec_eq_branchOf i st, exec_eq_branchOf i st'⟩

/-- Settles O19: `step_drive` names the one output, and the outputs of the next state pin it down. -/
theorem evaluationIsTotalAndDeterministic : Obligations.EvaluationIsTotalAndDeterministic := by
  unfold Obligations.EvaluationIsTotalAndDeterministic
  intro a b op
  refine ⟨outputsOf (decode (inVec op a b)) State.reset, fun st => step_drive st State.reset _, fun o ho => ?_⟩
  have hnext := (ho State.reset).symm.trans (step_drive State.reset State.reset _)
  injection hnext with hstate
  exact congrArg State.out hstate

/-! ## The pseudocode of the whole block -/

/-- Words side by side, as a number. -/
theorem toNat_append_eq_add {m n : Nat} (x : BitVec m) (y : BitVec n) : (x ++ y).toNat = x.toNat * 2 ^ n + y.toNat := by
  rw [BitVec.toNat_append, ← Nat.shiftLeft_add_eq_or_of_lt y.isLt, Nat.shiftLeft_eq]

theorem decode_inVec (op : Selector) (a b : Byte) :
    decode (inVec op a b) = Instr.ofOperation (operationOfWith Config.SEL op) a b := by
  rw [decode, decodeWith, opField_inVec, aField_inVec, bField_inVec]

/-- `t[7:0]`, as the pseudocode slices it. -/
theorem extractLsb'_eq_lowByte (t : BitVec 9) : t.extractLsb' 0 8 = lowByte t :=
  (BitVec.setWidth_eq_extractLsb' (by decide)).symm

/-- `{a, 0}`, as the pseudocode forms the shifted operand (spec/43_shift.md R90). -/
theorem append_zero_eq_shiftedLeftAt (a : Byte) : a ++ 0#1 = shiftedLeftAt 9 a := by
  apply BitVec.eq_of_toNat_eq
  calc (a ++ 0#1).toNat
    _ = a.toNat * 2 := toNat_append_eq_add a 0#1
    _ = 2 * a.toNat := Nat.mul_comm ..
    _ = (shiftedLeftAt 9 a).toNat := (toNat_shiftedLeftAt (le_refl 9) a).symm

/-- `{0, a[7:1]}`, as the pseudocode forms the result (spec/43_shift.md R91). -/
theorem zero_append_eq_shiftRight (a : Byte) : 0#1 ++ a.extractLsb' 1 7 = a >>> Config.SHAMT :=
  (BitVec.ushiftRight_eq_extractLsb'_of_lt (by decide)).symm

/-- The pseudocode of R55 is the common flags over the branch of the operation its selector names. -/
theorem evaluate_eq_branchOf (a b : Byte) (op : Selector) :
    evaluate a b op = (branchOf (Instr.ofOperation (operationOfWith Config.SEL op) a b)).withCommonFlags := by
  rw [evaluate]
  generalize operationOfWith Config.SEL op = o
  rcases o with _ | o
  · rfl
  cases o with
  | add => simp only [extractLsb'_eq_lowByte]; rfl
  | subtract => simp only [extractLsb'_eq_lowByte]; rfl
  | bitwiseAnd => rfl
  | bitwiseOr => rfl
  | bitwiseXor => rfl
  | shiftLeftLogical => simp only [append_zero_eq_shiftedLeftAt, extractLsb'_eq_lowByte]; rfl
  | shiftRightLogical => simp only [zero_append_eq_shiftRight]; rfl

/-- Settles O9: a step runs the instruction its ports decode to, and that is the pseudocode's branch and common flags. -/
theorem stepIsWholeBlockPseudocode : Obligations.StepIsWholeBlockPseudocode := by
  unfold Obligations.StepIsWholeBlockPseudocode
  intro st
  rw [step, exec_eq_branchOf, fetch, State.inputs, decode_inVec, ← evaluate_eq_branchOf, State.present]

/-! ## The reserved code -/

/-- The input vector as a number (spec/30_encoding.md R46). -/
theorem toNat_inVec (op : Selector) (a b : Byte) :
    (inVec op a b).toNat = op.toNat * 65536 + uval a * 256 + uval b := by
  rw [inVec, toNat_append_eq_add, toNat_append_eq_add, uval, uval]
  omega

/-- The vector with a request's number decodes to the operation of its code on its operands. -/
theorem decode_ofNat (op : Selector) (a b : Byte) :
    decode (BitVec.ofNat 19 (op.toNat * 65536 + uval a * 256 + uval b)) =
      Instr.ofOperation (operationOfWith Config.SEL op) a b := by
  rw [← toNat_inVec, BitVec.ofNat_toNat, BitVec.setWidth_eq, decode_inVec]

/-- A bitwise branch with result 0 leaves what the default branch keeps (spec/40_evaluation.md R59). -/
theorem bitwiseBranch_zero : bitwiseBranch 0x00#8 = Outputs.initial := rfl

/-- Settles O23: the default branch leaves result 0, which is also what `x ^ x` and `x & 0` leave. -/
theorem reservedCodeReportsZero : Obligations.ReservedCodeReportsZero := by
  unfold Obligations.ReservedCodeReportsZero
  refine fun a b st => ⟨decode_ofNat 0b111#3 a b, execRsv7_eq st, fun x => ?_⟩
  simp only [outputsOf_eq_branchOf, branchOf, BitVec.xor_self, BitVec.and_zero, bitwiseBranch_zero, and_self]

end Sys2Proof
end

section
/-! PROOFS of spec/41_arithmetic.md. What the intermediates of ADD and SUB mean in integers is said once, for every
precision that holds the ninth bit; the two overflow helpers are read as the sign conditions of R66 and R68. -/

namespace Sys2Proof

open Sys2Proof.Machine Sys2Proof.Laws

/-! ## The intermediates in integers -/

section Precision
variable {p : Nat} (hp : 9 ≤ p) (a b : Byte)
include hp

/-- The truncated sum (spec/41_arithmetic.md R65). -/
theorem uval_lowByte_sumAt : uval (lowByte (sumAt p a b)) = (uval a + uval b) % 256 := by
  rw [uval, lowByte, BitVec.toNat_setWidth, toNat_sumAt hp, uval, uval]

/-- The difference wraps at a multiple of 512, so its low nine bits are the same at every precision. -/
theorem toNat_diffAt_mod_512 : ((diffAt p a b).toNat : Int) % 512 = ((uval a : Int) - uval b) % 512 := by
  obtain ⟨k, hk⟩ : 2 ^ 9 ∣ 2 ^ p := Nat.pow_dvd_pow 2 hp
  have hpow := two_pow_precision hp
  have hb : b.toNat < 256 := b.isLt
  rw [toNat_diffAt hp, uval, uval]
  split <;> omega

/-- The truncated difference (spec/41_arithmetic.md R67). -/
theorem uval_lowByte_diffAt : (uval (lowByte (diffAt p a b)) : Int) = ((uval a : Int) - uval b) % 256 := by
  have hmod := toNat_diffAt_mod_512 hp a b
  have hlow : uval (lowByte (diffAt p a b)) = (diffAt p a b).toNat % 256 := BitVec.toNat_setWidth ..
  omega

/-- The ninth bit of the difference is the borrow (spec/41_arithmetic.md R67). -/
theorem ninthBit_diffAt : ninthBit (diffAt p a b) = true ↔ uval a < uval b := by
  have hmod := toNat_diffAt_mod_512 hp a b
  have ha : uval a < 256 := a.isLt
  have hb : uval b < 256 := b.isLt
  rw [ninthBit, getLsbD_eq_decide, decide_eq_true_iff]
  omega

end Precision

/-! ## The overflow helpers -/

section Overflow
variable (a b r : Byte)

theorem addOverflow_iff : addOverflow a b r = true ↔ a.getLsbD 7 = b.getLsbD 7 ∧ r.getLsbD 7 ≠ a.getLsbD 7 := by
  rw [addOverflow, BitVec.getLsbD_and, BitVec.getLsbD_not, BitVec.getLsbD_xor, BitVec.getLsbD_xor,
    decide_eq_true (by decide : 7 < 8), Bool.true_and, Bool.and_eq_true, Bool.not_eq_true', ← Bool.not_eq_true,
    Bool.xor_iff_ne, Bool.xor_iff_ne, not_not, ne_comm (a := r.getLsbD 7)]

theorem subOverflow_iff : subOverflow a b r = true ↔ a.getLsbD 7 ≠ b.getLsbD 7 ∧ r.getLsbD 7 ≠ a.getLsbD 7 := by
  rw [subOverflow, BitVec.getLsbD_and, BitVec.getLsbD_xor, BitVec.getLsbD_xor, Bool.and_eq_true, Bool.xor_iff_ne,
    Bool.xor_iff_ne, ne_comm (a := r.getLsbD 7)]

end Overflow

/-- Overflow comes only from ADD or SUB, each by its own helper on the result it presents. -/
theorem helper_of_overflow {i : Instr} {st : State} (h : (outputsOf i st).flags.v = true) :
    (∃ a b, i = .add a b ∧ addOverflow a b (outputsOf i st).result = true) ∨
    (∃ a b, i = .sub a b ∧ subOverflow a b (outputsOf i st).result = true) := by
  rw [outputsOf_eq_branchOf] at h ⊢
  obtain ⟨a, b, rfl | rfl⟩ := arithmetic_of_branchOf_v h
  · exact .inl ⟨a, b, rfl, h⟩
  · exact .inr ⟨a, b, rfl, h⟩

/-- Settles O26: the helper is its two sign conditions, ADD applies it to the truncated sum, and no other instruction
reports Overflow by it (`helper_of_overflow`). -/
theorem addOverflowHelper : Obligations.AddOverflowHelper := by
  unfold Obligations.AddOverflowHelper
  exact ⟨addOverflow_iff, fun a b st => ⟨_, execAdd_eq a b st, uval_lowByte_sumAt (by decide) a b, rfl⟩,
    fun _ _ => helper_of_overflow⟩

/-- Settles O27: the helper is its two sign conditions, SUB applies it to the truncated difference, and
`helper_of_overflow` leaves SUB alone once ADD is excluded. -/
theorem subtractOverflowHelper : Obligations.SubtractOverflowHelper := by
  unfold Obligations.SubtractOverflowHelper
  refine ⟨fun a b r => ⟨subOverflow_iff a b r, rfl, rfl⟩,
    fun a b st => ⟨_, execSub_eq a b st, uval_lowByte_diffAt (by decide) a b, rfl⟩, fun i st hv hadd => ?_⟩
  obtain ⟨a, b, hi, -⟩ | hsub := helper_of_overflow hv
  · exact absurd hi (hadd a b)
  · exact hsub

/-! ## SUB -/

/-- A borrow leaves a result that is not 0: `u(a) - u(b)` lies in `-255 .. -1` (spec/41_arithmetic.md R67). -/
theorem lowByte_diffAt_ne_zero {a b : Byte} {p : Nat} (hp : 9 ≤ p) (h : uval a < uval b) :
    lowByte (diffAt p a b) ≠ 0x00#8 := by
  intro hzero
  have hdiff := uval_lowByte_diffAt hp a b
  have hb : uval b < 256 := b.isLt
  rw [hzero, show uval 0x00#8 = 0 from rfl] at hdiff
  omega

/-- Carry and Overflow of SUB are independent (spec/95_test_vectors.md section 2.2). -/
theorem sub_carry_overflow_independent (st : State) (c v : Bool) :
    ∃ x y, (outputsOf (.sub x y) st).flags.c = c ∧ (outputsOf (.sub x y) st).flags.v = v := by
  simp only [outputsOf_eq_branchOf]
  match c, v with
  | false, false => exact ⟨0x00#8, 0x00#8, by decide⟩
  | false, true => exact ⟨0x80#8, 0x01#8, by decide⟩
  | true, false => exact ⟨0x0A#8, 0x28#8, by decide⟩
  | true, true => exact ⟨0x7F#8, 0xFF#8, by decide⟩

/-- `0x01 - 0x00` and `0x00 - 0x01` differ. -/
theorem sub_not_commutative (st : State) : ∃ x y, outputsOf (.sub x y) st ≠ outputsOf (.sub y x) st := by
  simp only [outputsOf_eq_branchOf]
  exact ⟨0x01#8, 0x00#8, by decide⟩

/-- Settles O25: result and borrow are the two parts of the 9-bit difference, and a borrow leaves no result 0. -/
theorem subRule : Obligations.SubRule := by
  unfold Obligations.SubRule
  intro a b st
  have hp : 9 ≤ Config.IPREC := le_refl 9
  have hborrow := ninthBit_diffAt hp a b
  refine ⟨decode_ofNat 0b001#3 a b,
    ⟨_, execSub_eq a b st, uval_lowByte_diffAt hp a b, hborrow, subOverflow_iff a b _, zeroFlag_eq_true_iff _, rfl, ?_⟩,
    sub_not_commutative st, sub_carry_overflow_independent st⟩
  rintro ⟨hc, hz⟩
  exact lowByte_diffAt_ne_zero hp (hborrow.mp hc) ((zeroFlag_eq_true_iff _).mp hz)

end Sys2Proof
end

section
/-! PROOFS of spec/42_logic.md. What AND, OR and XOR present is a function of one word: the word is their result, Carry
and Overflow are 0, and Zero and Negative are read off it. Each claim of R80 to R82 is then a fact about that word. -/

namespace Sys2Proof

open Sys2Proof.Machine Sys2Proof.Laws

/-! ## What a bitwise operation presents -/

section Presented
variable (a b : Byte) (st : State)

theorem outputsOf_and : outputsOf (.and a b) st = (bitwiseBranch (a &&& b)).withCommonFlags :=
  outputsOf_eq_branchOf (.and a b) st

theorem outputsOf_or : outputsOf (.or a b) st = (bitwiseBranch (a ||| b)).withCommonFlags :=
  outputsOf_eq_branchOf (.or a b) st

theorem outputsOf_xor : outputsOf (.xor a b) st = (bitwiseBranch (a ^^^ b)).withCommonFlags :=
  outputsOf_eq_branchOf (.xor a b) st

@[simp] theorem outputsOf_and_result : (outputsOf (.and a b) st).result = a &&& b :=
  congrArg Outputs.result (outputsOf_and a b st)

@[simp] theorem outputsOf_or_result : (outputsOf (.or a b) st).result = a ||| b :=
  congrArg Outputs.result (outputsOf_or a b st)

@[simp] theorem outputsOf_xor_result : (outputsOf (.xor a b) st).result = a ^^^ b :=
  congrArg Outputs.result (outputsOf_xor a b st)

theorem outputsOf_and_comm : outputsOf (.and a b) st = outputsOf (.and b a) st := by
  rw [outputsOf_and, outputsOf_and, BitVec.and_comm]

theorem outputsOf_or_comm : outputsOf (.or a b) st = outputsOf (.or b a) st := by
  rw [outputsOf_or, outputsOf_or, BitVec.or_comm]

theorem outputsOf_xor_comm : outputsOf (.xor a b) st = outputsOf (.xor b a) st := by
  rw [outputsOf_xor, outputsOf_xor, BitVec.xor_comm]

end Presented

/-! ## The rules -/

/-- A byte with every bit set, as the library spells it. -/
theorem byte_ff_eq_allOnes : 0xFF#8 = BitVec.allOnes 8 := rfl

/-- A bit of the exclusive or says whether the operands differ there (spec/42_logic.md R82). -/
theorem getLsbD_xor_iff_ne (a b : Byte) (k : Nat) : (a ^^^ b).getLsbD k = true ↔ a.getLsbD k ≠ b.getLsbD k := by
  rw [BitVec.getLsbD_xor, Bool.xor_iff_ne]

/-- Settles O35: the conjunction bit by bit, its flags, and its zero, unit and idempotence. -/
theorem andRule : Obligations.AndRule := by
  unfold Obligations.AndRule
  intro a b st
  refine ⟨decode_ofNat 0b010#3 a b,
    ⟨_, execAnd_eq a b st, rfl, fun _ _ => BitVec.getLsbD_and, rfl, rfl, zeroFlag_eq_true_iff _, rfl, BitVec.getLsbD_and⟩,
    ?_, ?_, ?_, ?_, outputsOf_and_comm a b st⟩
  · rw [outputsOf_and_result, BitVec.and_zero]
  · rw [outputsOf_and_result, byte_ff_eq_allOnes, BitVec.and_allOnes]
  · rw [outputsOf_and_result, BitVec.and_self]
  · rw [outputsOf_and_result]
    decide

/-- Settles O36: the disjunction bit by bit, its flags, and its zero, unit and idempotence; it is 0 only where both
operands are. -/
theorem orRule : Obligations.OrRule := by
  unfold Obligations.OrRule
  intro a b st
  refine ⟨decode_ofNat 0b011#3 a b,
    ⟨_, execOr_eq a b st, rfl, fun _ _ => BitVec.getLsbD_or, rfl, rfl, zeroFlag_eq_true_iff _,
      (zeroFlag_eq_true_iff _).trans BitVec.or_eq_zero_iff, rfl, BitVec.getLsbD_or⟩,
    ?_, ?_, ?_, ?_, outputsOf_or_comm a b st⟩
  · rw [outputsOf_or_result, BitVec.or_zero]
  · rw [outputsOf_or_result, byte_ff_eq_allOnes, BitVec.or_allOnes]
  · rw [outputsOf_or, byte_ff_eq_allOnes, BitVec.or_allOnes]
    rfl
  · rw [outputsOf_or_result, BitVec.or_self]

/-- Settles O37: the exclusive or bit by bit, its flags, and the complement; it is 0 only where the operands agree. -/
theorem xorRule : Obligations.XorRule := by
  unfold Obligations.XorRule
  intro a b st
  refine ⟨decode_ofNat 0b100#3 a b,
    ⟨_, execXor_eq a b st, rfl, fun k _ => getLsbD_xor_iff_ne a b k, rfl, rfl, zeroFlag_eq_true_iff _,
      (zeroFlag_eq_true_iff _).trans BitVec.xor_eq_zero_iff, rfl, getLsbD_xor_iff_ne a b 7⟩,
    ?_, ?_, ?_, outputsOf_xor_comm a b st⟩
  · rw [outputsOf_xor_result, BitVec.xor_self]
  · rw [outputsOf_xor_result, BitVec.xor_zero]
  · rw [outputsOf_xor_result, byte_ff_eq_allOnes, BitVec.xor_allOnes]

end Sys2Proof
end

section
/-! PROOFS of spec/43_shift.md. SLL doubles its operand and SRL halves it: the two intermediates are library shifts by one
place, their bits are read off those, and the corner cases of Zero off their numbers. -/

namespace Sys2Proof

open Sys2Proof.Machine Sys2Proof.Laws

/-! ## The intermediates -/

section LeftIntermediate
variable {p : Nat} (hp : 9 ≤ p) (a : Byte)
include hp

/-- The truncated doubling (spec/43_shift.md R90). -/
theorem uval_lowByte_shiftedLeftAt : uval (lowByte (shiftedLeftAt p a)) = 2 * uval a % 256 := by
  rw [uval, lowByte, BitVec.toNat_setWidth, toNat_shiftedLeftAt hp, uval]

/-- `t[7:0]` is the byte shifted within its own eight bits. -/
theorem lowByte_shiftedLeftAt : lowByte (shiftedLeftAt p a) = a <<< Config.SHAMT := by
  apply BitVec.eq_of_toNat_eq
  calc (lowByte (shiftedLeftAt p a)).toNat
    _ = 2 * a.toNat % 256 := uval_lowByte_shiftedLeftAt hp a
    _ = (a <<< Config.SHAMT).toNat := by rw [BitVec.toNat_shiftLeft, Nat.shiftLeft_eq, Nat.pow_one, Nat.mul_comm]

/-- `t[8]` is the bit shifted out (spec/43_shift.md R90). -/
theorem ninthBit_shiftedLeftAt : ninthBit (shiftedLeftAt p a) = a.getLsbD 7 := by
  have ha : a.toNat < 256 := a.isLt
  rw [ninthBit, getLsbD_eq_decide, toNat_shiftedLeftAt hp, signBit_eq_decide, decide_eq_decide]
  omega

/-- A left shift is the sum of the operand with itself (spec/43_shift.md R93). -/
theorem sumAt_self_eq_shiftedLeftAt : sumAt p a a = shiftedLeftAt p a := by
  apply BitVec.eq_of_toNat_eq
  rw [toNat_sumAt hp, toNat_shiftedLeftAt hp, Nat.two_mul]

end LeftIntermediate

section Bits
variable (a : Byte)

theorem getLsbD_shiftLeft_succ {k : Nat} (hk : k < 7) : (a <<< Config.SHAMT).getLsbD (k + 1) = a.getLsbD k := by
  rw [BitVec.getLsbD_shiftLeft, decide_eq_true (by omega : k + 1 < 8), decide_eq_false (by omega : ¬ k + 1 < 1),
    Nat.add_sub_cancel, Bool.not_false, Bool.true_and, Bool.true_and]

/-- The vacated bit is 0 (spec/43_shift.md R90). -/
theorem getLsbD_shiftLeft_zero : (a <<< Config.SHAMT).getLsbD 0 = false := by
  rw [BitVec.getLsbD_shiftLeft, decide_eq_true (by decide : 0 < 1), Bool.not_true, Bool.and_false, Bool.false_and]

theorem getLsbD_shiftRight (k : Nat) : (a >>> Config.SHAMT).getLsbD k = a.getLsbD (k + 1) := by
  rw [BitVec.getLsbD_ushiftRight, Nat.add_comm]

/-- The vacated bit is 0 (spec/43_shift.md R91). -/
theorem getLsbD_shiftRight_seven : (a >>> Config.SHAMT).getLsbD 7 = false := by
  rw [getLsbD_shiftRight, BitVec.getLsbD_of_ge a 8 (le_refl 8)]

theorem uval_shiftRight : uval (a >>> Config.SHAMT) = uval a / 2 := by
  rw [uval, BitVec.toNat_ushiftRight, Nat.shiftRight_eq_div_pow, Nat.pow_one, uval]

/-- The bit shifted out to the right is the remainder of the halving (spec/43_shift.md R91). -/
theorem toNat_getLsbD_zero : (a.getLsbD 0).toNat = uval a % 2 := by
  rw [BitVec.getLsbD, Nat.toNat_testBit, Nat.pow_zero, Nat.div_one, uval]

theorem uval_eq_two_mul_shiftRight_add : uval a = 2 * uval (a >>> Config.SHAMT) + (a.getLsbD 0).toNat := by
  rw [uval_shiftRight, toNat_getLsbD_zero, Nat.div_add_mod]

end Bits

/-! ## Zero -/

/-- A byte is a given one where its number is. -/
theorem eq_ofNat_iff_uval {a : Byte} {n : Nat} (hn : n < 256) : a = BitVec.ofNat 8 n ↔ uval a = n := by
  rw [uval, ← BitVec.toNat_inj, BitVec.toNat_ofNat, Nat.mod_eq_of_lt hn]

/-- Doubling leaves 0 only from 0 and from the sign bit alone (spec/43_shift.md R90). -/
theorem zeroFlag_shiftedLeftAt_iff {p : Nat} (hp : 9 ≤ p) (a : Byte) :
    zeroFlag (lowByte (shiftedLeftAt p a)) = true ↔ a = 0x00#8 ∨ a = 0x80#8 := by
  have ha : uval a < 256 := a.isLt
  rw [zeroFlag_iff, ← uval, uval_lowByte_shiftedLeftAt hp, eq_ofNat_iff_uval (by decide), eq_ofNat_iff_uval (by decide)]
  omega

/-- Halving leaves 0 only from 0 and from 1 (spec/43_shift.md R91). -/
theorem zeroFlag_shiftRight_iff (a : Byte) :
    zeroFlag (a >>> Config.SHAMT) = true ↔ a = 0x00#8 ∨ a = 0x01#8 := by
  rw [zeroFlag_iff, ← uval, uval_shiftRight, eq_ofNat_iff_uval (by decide), eq_ofNat_iff_uval (by decide)]
  omega

/-! ## The rules -/

/-- Settles O39: the result is the byte shifted in place, Carry the ninth bit of the doubling. -/
theorem sllRule : Obligations.SllRule := by
  unfold Obligations.SllRule
  intro a b st
  have hp : 9 ≤ Config.IPREC := le_refl 9
  have hresult := lowByte_shiftedLeftAt hp a
  have hbits : ∀ k, k < 7 → (lowByte (shiftedLeftAt Config.IPREC a)).getLsbD (k + 1) = a.getLsbD k := fun k hk => by
    rw [hresult, getLsbD_shiftLeft_succ a hk]
  have hvacated : (lowByte (shiftedLeftAt Config.IPREC a)).getLsbD 0 = false := by
    rw [hresult, getLsbD_shiftLeft_zero]
  exact ⟨decode_ofNat 0b101#3 a b,
    ⟨_, execSll_eq a st, uval_lowByte_shiftedLeftAt hp a, hbits, hvacated, ninthBit_shiftedLeftAt hp a, rfl,
      zeroFlag_eq_true_iff _, zeroFlag_shiftedLeftAt_iff hp a, rfl, hbits 6 (by decide)⟩⟩

/-- Settles O40: the bits move down one place, and Carry holds the remainder of the halving. -/
theorem srlRule : Obligations.SrlRule := by
  unfold Obligations.SrlRule
  intro a b st
  have hvacated := getLsbD_shiftRight_seven a
  exact ⟨decode_ofNat 0b110#3 a b,
    ⟨_, execSrl_eq a st, uval_shiftRight a, fun k _ => getLsbD_shiftRight a k, hvacated, rfl, rfl,
      zeroFlag_eq_true_iff _, zeroFlag_shiftRight_iff a, rfl, hvacated, uval_eq_two_mul_shiftRight_add a⟩⟩

/-- ADD of an operand to itself reports Overflow exactly where a left shift changes the sign (spec/43_shift.md R93). -/
theorem sign_shiftedLeftAt_ne_iff (a : Byte) (st : State) :
    (lowByte (shiftedLeftAt Config.IPREC a)).getLsbD 7 ≠ a.getLsbD 7 ↔ (outputsOf (.add a a) st).flags.v = true := by
  have hv : (outputsOf (.add a a) st).flags.v = addOverflow a a (lowByte (sumAt Config.IPREC a a)) :=
    congrArg (·.flags.v) (outputsOf_eq_branchOf (.add a a) st)
  rw [hv, addOverflow_iff, sumAt_self_eq_shiftedLeftAt (le_refl 9), and_iff_right rfl]

/-- Settles O42: both branches write Overflow 0; the sum of `a` with itself is the same intermediate as its left shift,
so that ADD sees the same change of sign. -/
theorem shiftsNeverReportOverflow : Obligations.ShiftsNeverReportOverflow := by
  unfold Obligations.ShiftsNeverReportOverflow
  refine ⟨fun a b st => ⟨_, _, execSll_eq a st, execSrl_eq a st, rfl, rfl, sign_shiftedLeftAt_ne_iff a st⟩, fun st => ?_⟩
  rw [outputsOf_eq_branchOf]
  decide

/-! ## The ignored operand -/

section IgnoredOperand
variable (a b b' : Byte) (st : State)

theorem outputsOf_sll_ignores_b : outputsOf (.sll a b) st = outputsOf (.sll a b') st := by
  rw [outputsOf_eq_branchOf, outputsOf_eq_branchOf, branchOf, branchOf]

theorem outputsOf_srl_ignores_b : outputsOf (.srl a b) st = outputsOf (.srl a b') st := by
  rw [outputsOf_eq_branchOf, outputsOf_eq_branchOf, branchOf, branchOf]

/-- The two shift codes of spec/30_encoding.md R43 carry R92 to the decoder. -/
theorem outputsOf_decode_shift_ignores_b {op : Selector} (hop : op = 0b101#3 ∨ op = 0b110#3) :
    outputsOf (decode (inVec op a b)) st = outputsOf (decode (inVec op a b')) st := by
  rw [decode_inVec, decode_inVec]
  obtain rfl | rfl := hop
  · exact outputsOf_sll_ignores_b a b b' st
  · exact outputsOf_srl_ignores_b a b b' st

end IgnoredOperand

/-- Settles O41: the branch of a shift takes no `b`, and `step_drive` presents that branch whichever `b` is driven. -/
theorem shiftsIgnoreB : Obligations.ShiftsIgnoreB := by
  unfold Obligations.ShiftsIgnoreB
  refine ⟨fun a b b' st => ⟨outputsOf_sll_ignores_b a b b' st, outputsOf_srl_ignores_b a b b' st⟩,
    fun a b b' op st hop => ⟨outputsOf (decode (inVec op a b)) st, step_drive st st _, ?_⟩, fun st => ?_⟩
  · rw [outputsOf_decode_shift_ignores_b a b b' st hop]
    exact step_drive st st _
  · rw [outputsOf_eq_branchOf]
    decide

end Sys2Proof
end

section
/-! PROOFS of spec/30_encoding.md sections 3 and 4 under any numbering. Distinct codes make the numbering readable back,
and seven of eight codes are taken, so that exactly one names no operation: it is the reserved instruction's. -/

namespace Sys2Proof

open Sys2Proof.Machine Sys2Proof.Laws

/-! ## The selector codes as a list -/

theorem mem_selectorCodes (code : Selector) : code ∈ selectorCodes := by
  have hall : ∀ c : Selector, c ∈ selectorCodes := by decide
  exact hall code

section AnyNumbering
variable {sel : Operation → Selector}

theorem length_assignedCodes : (Operation.all.map sel).length = Config.NOPS := by
  rw [List.length_map]
  exact operations_listing.2

/-! ## Which operation a code names -/

/-- A code names no operation where the numbering gives it to none (spec/30_encoding.md R44). -/
theorem operationOfWith_eq_none_iff {code : Selector} :
    operationOfWith sel code = none ↔ code ∉ Operation.all.map sel := by
  simp [operationOfWith]

/-- The code a named operation was read from is its own. -/
theorem sel_of_operationOfWith {code : Selector} {o : Operation} (h : operationOfWith sel code = some o) :
    sel o = code :=
  beq_iff_eq.mp (List.find?_some (p := fun o => sel o == code) h)

/-- Some code names no operation: eight codes do not fit seven names. -/
theorem exists_unassigned : ∃ code, operationOfWith sel code = none := by
  by_contra hall
  have hsub : selectorCodes ⊆ Operation.all.map sel := fun code _ => by
    by_contra hcode
    exact hall ⟨code, operationOfWith_eq_none_iff.mpr hcode⟩
  have hnodup : selectorCodes.Nodup := by decide
  have hle := (hnodup.subperm hsub).length_le
  rw [length_assignedCodes] at hle
  exact absurd hle (by decide)

/-- The last alternative of `unassignedWith` is never taken. -/
theorem operationOfWith_unassignedWith : operationOfWith sel (unassignedWith sel) = none := by
  obtain ⟨code, hcode⟩ := exists_unassigned (sel := sel)
  have hfound : (selectorCodes.find? fun c => (operationOfWith sel c).isNone).isSome :=
    List.find?_isSome.mpr ⟨code, mem_selectorCodes code, Option.isNone_iff_eq_none.mpr hcode⟩
  obtain ⟨c, hc⟩ := Option.isSome_iff_exists.mp hfound
  rw [unassignedWith, hc, Option.getD_some]
  exact Option.isNone_iff_eq_none.mp (List.find?_some (p := fun code => (operationOfWith sel code).isNone) hc)

section Distinct
variable (hsel : Function.Injective sel)
include hsel

theorem operationOfWith_eq_some_iff {code : Selector} {o : Operation} :
    operationOfWith sel code = some o ↔ sel o = code := by
  refine ⟨sel_of_operationOfWith, ?_⟩
  rintro rfl
  cases hfind : operationOfWith sel (sel o) with
  | none => exact absurd (List.mem_map_of_mem (mem_operations o)) (operationOfWith_eq_none_iff.mp hfind)
  | some p => rw [hsel (sel_of_operationOfWith hfind)]

/-- Two codes that name no operation are the same one: with the seven assigned ones they would make nine. -/
theorem unassigned_unique {c d : Selector} (hc : operationOfWith sel c = none) (hd : operationOfWith sel d = none) :
    c = d := by
  by_contra hne
  have hassigned : (Operation.all.map sel).Nodup := operations_listing.1.map hsel
  have hnodup : (c :: d :: Operation.all.map sel).Nodup := by
    rw [List.nodup_cons, List.nodup_cons, List.mem_cons, not_or]
    exact ⟨⟨hne, operationOfWith_eq_none_iff.mp hc⟩, operationOfWith_eq_none_iff.mp hd, hassigned⟩
  have hle := (hnodup.subperm fun code _ => mem_selectorCodes code).length_le
  rw [List.length_cons, List.length_cons, length_assignedCodes] at hle
  exact absurd hle (by decide)

/-! ## The two round trips of selector codes -/

/-- An instruction's code is read as its operation. -/
theorem operationOfWith_selectorOfWith (i : Instr) : operationOfWith sel (selectorOfWith sel i) = i.operation := by
  rw [selectorOfWith]
  cases i.operation with
  | none => exact operationOfWith_unassignedWith
  | some o => exact (operationOfWith_eq_some_iff hsel).mpr rfl

/-- The code an operation, or none, was read from is the one it is written with. -/
theorem selectorOfWith_operationOfWith (code : Selector) (a b : Byte) :
    selectorOfWith sel (Instr.ofOperation (operationOfWith sel code) a b) = code := by
  rw [selectorOfWith, Instr.operation_ofOperation]
  cases hcode : operationOfWith sel code with
  | none => exact unassigned_unique hsel operationOfWith_unassignedWith hcode
  | some o => exact (operationOfWith_eq_some_iff hsel).mp hcode

end Distinct

end AnyNumbering

/-- Settles O2: a numbering by distinct codes is read back, and the reserved code is one that names no operation. -/
theorem decodeOfEncodeUnderEveryNumbering : Obligations.DecodeOfEncodeUnderEveryNumbering := by
  unfold Obligations.DecodeOfEncodeUnderEveryNumbering
  exact fun sel hsel => decodeWith_encodeWith (operationOfWith_selectorOfWith hsel)

/-- Settles O3: the only code that names no operation is the reserved one, so that no code is lost. -/
theorem encodeOfDecodeUnderEveryNumbering : Obligations.EncodeOfDecodeUnderEveryNumbering := by
  unfold Obligations.EncodeOfDecodeUnderEveryNumbering
  exact fun sel hsel => encodeWith_decodeWith (selectorOfWith_operationOfWith hsel)

end Sys2Proof
end

section
/-! PROOFS of spec/41_arithmetic.md section 4. At every precision that holds the ninth bit the branches of ADD, SUB and
SLL are one equation each, in byte arithmetic with Carry and Overflow as integer comparisons; the derivations R70 to R75
are facts about those integers. -/

namespace Sys2Proof

open Sys2Proof.Machine Sys2Proof.Laws Sys2Proof.Safety

/-! ## Signed and unsigned readings -/

section Readings
variable (a b r : Byte)

theorem uval_add : uval (a + b) = (uval a + uval b) % 256 := BitVec.toNat_add a b

theorem uval_sub : (uval (a - b) : Int) = ((uval a : Int) - uval b) % 256 := by
  have hb : uval b < 256 := b.isLt
  have hsub : uval (a - b) = (256 - uval b + uval a) % 256 := BitVec.toNat_sub a b
  omega

theorem uval_not : uval (~~~a) = 255 - uval a := BitVec.toNat_not

/-- `s(v)` with its sign bit read off `u(v)` (spec/00_scope.md R8). -/
theorem sval_eq_ite : sval a = if 128 ≤ uval a then (uval a : Int) - 256 else uval a := by
  rw [sval, signBit_eq_decide]
  exact if_congr decide_eq_true_iff rfl rfl

theorem fitsSigned_iff {x : Int} : fitsSigned x = true ↔ -128 ≤ x ∧ x ≤ 127 := decide_eq_true_iff

theorem not_fitsSigned_iff (x : Int) : (!fitsSigned x) = true ↔ ¬ (-128 ≤ x ∧ x ≤ 127) := by
  rw [Bool.not_eq_true', ← Bool.not_eq_true, fitsSigned_iff]

theorem not_fitsSigned_eq_false_iff (x : Int) : (!fitsSigned x) = false ↔ -128 ≤ x ∧ x ≤ 127 := by
  rw [← Bool.not_eq_true, not_fitsSigned_iff, not_not]

theorem fitsSigned_sval : fitsSigned (sval a) = true := by
  have ha : uval a < 256 := a.isLt
  rw [fitsSigned_iff, sval_eq_ite]
  split <;> omega

/-- Bits 7 agree where the unsigned readings lie in the same half. -/
theorem signBit_eq_iff : a.getLsbD 7 = b.getLsbD 7 ↔ (128 ≤ uval a ↔ 128 ≤ uval b) := by
  rw [signBit_eq_decide, signBit_eq_decide, decide_eq_decide, uval, uval]

/-- The Add helper on the wrapped sum is the signed range (spec/41_arithmetic.md R70). -/
theorem addOverflow_add : addOverflow a b (a + b) = !fitsSigned (sval a + sval b) := by
  have ha : uval a < 256 := a.isLt
  have hb : uval b < 256 := b.isLt
  have hsum := uval_add a b
  rw [Bool.eq_iff_iff, addOverflow_iff, ne_eq, signBit_eq_iff, signBit_eq_iff, not_fitsSigned_iff, sval_eq_ite,
    sval_eq_ite]
  split <;> split <;> omega

/-- The Subtract helper on the wrapped difference is the signed range (spec/41_arithmetic.md R71). -/
theorem subOverflow_sub : subOverflow a b (a - b) = !fitsSigned (sval a - sval b) := by
  have ha : uval a < 256 := a.isLt
  have hb : uval b < 256 := b.isLt
  have hdiff := uval_sub a b
  rw [Bool.eq_iff_iff, subOverflow_iff, ne_eq, ne_eq, signBit_eq_iff, signBit_eq_iff, not_fitsSigned_iff, sval_eq_ite,
    sval_eq_ite]
  split <;> split <;> omega

/-- The two helpers differ in one complement (spec/41_arithmetic.md R71). -/
theorem subOverflow_eq_addOverflow_not : subOverflow a b r = addOverflow a (~~~b) r := by
  rw [subOverflow, addOverflow, BitVec.not_xor_right, BitVec.not_not]

end Readings

/-! ## The branches as one equation each -/

section Branches
variable {p : Nat} (hp : 9 ≤ p) (a b : Byte)
include hp

theorem lowByte_sumAt : lowByte (sumAt p a b) = a + b :=
  BitVec.eq_of_toNat_eq ((uval_lowByte_sumAt hp a b).trans (uval_add a b).symm)

theorem lowByte_diffAt : lowByte (diffAt p a b) = a - b :=
  BitVec.eq_of_toNat_eq (Int.ofNat_inj.mp ((uval_lowByte_diffAt hp a b).trans (uval_sub a b).symm))

/-- The ninth bit of the sum is the carry-out (spec/41_arithmetic.md R65). -/
theorem ninthBit_sumAt : ninthBit (sumAt p a b) = true ↔ 256 ≤ uval a + uval b := by
  have ha : a.toNat < 256 := a.isLt
  have hb : b.toNat < 256 := b.isLt
  rw [ninthBit, getLsbD_eq_decide, toNat_sumAt hp, decide_eq_true_iff, uval, uval]
  omega

theorem addBranch_eq :
    addBranch p a b =
      Outputs.initial.branch (a + b) (decide (256 ≤ uval a + uval b)) (!fitsSigned (sval a + sval b)) := by
  have hcarry : ninthBit (sumAt p a b) = decide (256 ≤ uval a + uval b) := by
    rw [Bool.eq_iff_iff, ninthBit_sumAt hp, decide_eq_true_iff]
  rw [addBranch, lowByte_sumAt hp, addOverflow_add, hcarry]

theorem subBranch_eq :
    subBranch p a b =
      Outputs.initial.branch (a - b) (decide (uval a < uval b)) (!fitsSigned (sval a - sval b)) := by
  have hborrow : ninthBit (diffAt p a b) = decide (uval a < uval b) := by
    rw [Bool.eq_iff_iff, ninthBit_diffAt hp, decide_eq_true_iff]
  rw [subBranch, lowByte_diffAt hp, subOverflow_sub, hborrow]

theorem sllBranch_eq : sllBranch p a = Outputs.initial.branch (a <<< Config.SHAMT) (a.getLsbD 7) false := by
  rw [sllBranch, lowByte_shiftedLeftAt hp, ninthBit_shiftedLeftAt hp]

end Branches

/-- Settles O22: the right sides of the three equations do not mention the precision. -/
theorem widerIntermediatesChangeNothing : Obligations.WiderIntermediatesChangeNothing := by
  unfold Obligations.WiderIntermediatesChangeNothing
  intro p hp a b
  have h9 : 9 ≤ 9 := le_refl 9
  rw [addBranch_eq hp, addBranch_eq h9, subBranch_eq hp, subBranch_eq h9, sllBranch_eq hp, sllBranch_eq h9]
  exact ⟨rfl, rfl, rfl⟩

/-! ## What ADD and SUB present -/

/-- The outputs of ADD in integers (spec/41_arithmetic.md R65, R70). -/
def Machine.addOutputs (a b : Byte) : Outputs :=
  (Outputs.initial.branch (a + b) (decide (256 ≤ uval a + uval b)) (!fitsSigned (sval a + sval b))).withCommonFlags

/-- The outputs of SUB in integers (spec/41_arithmetic.md R67, R71). -/
def Machine.subOutputs (a b : Byte) : Outputs :=
  (Outputs.initial.branch (a - b) (decide (uval a < uval b)) (!fitsSigned (sval a - sval b))).withCommonFlags

theorem outputsOf_eq_of_exec {i : Instr} {st : State} {o : Outputs} (h : exec i st = .next (st.present o)) :
    outputsOf i st = o := by
  simp only [outputsOf, h, State.present_out]

section Presented
variable (a b : Byte) (st : State)

theorem exec_add : exec (.add a b) st = .next (st.present (addOutputs a b)) := by
  rw [exec_eq_branchOf, branchOf, addBranch_eq (le_refl 9), addOutputs]

theorem exec_sub : exec (.sub a b) st = .next (st.present (subOutputs a b)) := by
  rw [exec_eq_branchOf, branchOf, subBranch_eq (le_refl 9), subOutputs]

theorem outputsOf_add : outputsOf (.add a b) st = addOutputs a b :=
  outputsOf_eq_of_exec (exec_add a b st)

theorem outputsOf_sub : outputsOf (.sub a b) st = subOutputs a b :=
  outputsOf_eq_of_exec (exec_sub a b st)

@[simp] theorem Machine.subOutputs_result : (subOutputs a b).result = a - b := rfl
@[simp] theorem Machine.subOutputs_c : (subOutputs a b).flags.c = decide (uval a < uval b) := rfl

/-- ADD is commutative in all five outputs (spec/41_arithmetic.md R65). -/
theorem outputsOf_add_comm : outputsOf (.add a b) st = outputsOf (.add b a) st := by
  rw [outputsOf_add, outputsOf_add, addOutputs, addOutputs, BitVec.add_comm, Nat.add_comm, Int.add_comm]

end Presented

/-- Carry and Overflow of ADD are independent (spec/95_test_vectors.md section 2.1). -/
theorem add_carry_overflow_independent (st : State) (c v : Bool) :
    ∃ x y, (outputsOf (.add x y) st).flags.c = c ∧ (outputsOf (.add x y) st).flags.v = v := by
  simp only [outputsOf_add]
  match c, v with
  | false, false => exact ⟨0x00#8, 0x00#8, by decide⟩
  | false, true => exact ⟨0x7F#8, 0x01#8, by decide⟩
  | true, false => exact ⟨0xFF#8, 0x01#8, by decide⟩
  | true, true => exact ⟨0x80#8, 0x80#8, by decide⟩

/-- Settles O24: result and carry-out are the two parts of the 9-bit sum, Overflow the helper's two sign conditions. -/
theorem addRule : Obligations.AddRule := by
  unfold Obligations.AddRule
  intro a b st
  have hp : 9 ≤ Config.IPREC := le_refl 9
  exact ⟨decode_ofNat 0b000#3 a b,
    ⟨_, execAdd_eq a b st, uval_lowByte_sumAt hp a b, ninthBit_sumAt hp a b, addOverflow_iff a b _,
      zeroFlag_eq_true_iff _, rfl⟩,
    outputsOf_add_comm a b st, add_carry_overflow_independent st⟩

/-! ## Overflow as a range -/

section Range
variable (a b : Byte)

/-- Overflow of the sum is the carry into bit 7 against the carry out of it (spec/41_arithmetic.md R70). -/
theorem not_fitsSigned_add_eq_xor :
    (!fitsSigned (sval a + sval b)) =
      (decide (128 ≤ uval a % 128 + uval b % 128) ^^ decide (256 ≤ uval a + uval b)) := by
  have ha : uval a < 256 := a.isLt
  have hb : uval b < 256 := b.isLt
  rw [Bool.eq_iff_iff, not_fitsSigned_iff, Bool.xor_iff_ne, ne_eq, decide_eq_decide, sval_eq_ite, sval_eq_ite]
  split <;> split <;> omega

/-- The signed reading agrees with the unsigned one modulo 256. -/
theorem sval_emod : sval a % 256 = uval a := by
  have ha : uval a < 256 := a.isLt
  rw [sval_eq_ite]
  split <;> omega

/-- A byte that is an integer modulo 256 reads back as that integer, where two's complement holds it. -/
theorem sval_eq_of_fits {x : Int} (hfits : -128 ≤ x ∧ x ≤ 127) (hmod : (uval a : Int) = x % 256) : sval a = x := by
  rw [sval_eq_ite]
  split <;> omega

theorem uval_add_eq_sval : (uval (a + b) : Int) = (sval a + sval b) % 256 := by
  have hsum := uval_add a b
  have ha := sval_emod a
  have hb := sval_emod b
  omega

theorem uval_sub_eq_sval : (uval (a - b) : Int) = (sval a - sval b) % 256 := by
  have hdiff := uval_sub a b
  have ha := sval_emod a
  have hb := sval_emod b
  omega

end Range

/-- Settles O28: the range is the helper's condition on the wrapped sum, and the exact sum differs from it by at most
one turn of 256. -/
theorem addOverflowIsSignedRange : Obligations.AddOverflowIsSignedRange := by
  unfold Obligations.AddOverflowIsSignedRange
  intro a b st
  have hmod := uval_add_eq_sval a b
  have ha := fitsSigned_iff.mp (fitsSigned_sval a)
  have hb := fitsSigned_iff.mp (fitsSigned_sval b)
  refine ⟨addOutputs a b, exec_add a b st, not_fitsSigned_iff _, not_fitsSigned_add_eq_xor a b, fun hv => ?_,
    fun hv => ?_⟩
  · exact sval_eq_of_fits _ ((not_fitsSigned_eq_false_iff _).mp hv) hmod
  · have hout := (not_fitsSigned_iff _).mp hv
    rcases lt_or_ge (sval a + sval b) 0 with hneg | hpos
    · exact .inl (sval_eq_of_fits _ (by omega) (hmod.trans (Int.add_emod_right ..).symm))
    · exact .inr (sval_eq_of_fits _ (by omega) (hmod.trans (Int.sub_emod_right ..).symm))

/-- Settles O29: as for ADD, with the exact difference; the helpers differ in one complement. -/
theorem subtractOverflowIsSignedRange : Obligations.SubtractOverflowIsSignedRange := by
  unfold Obligations.SubtractOverflowIsSignedRange
  exact ⟨fun a b st => ⟨subOutputs a b, exec_sub a b st, not_fitsSigned_iff _, fun hv =>
    sval_eq_of_fits _ ((not_fitsSigned_eq_false_iff _).mp hv) (uval_sub_eq_sval a b)⟩,
    subOverflow_eq_addOverflow_not⟩

/-! ## Borrow, identities, comparisons -/

/-- Settles O30: the ninth bit of the difference is the borrow at every precision, and adding the complement and 1 is
adding `256 - u(b)`. -/
theorem borrowIsTheNinthBit : Obligations.BorrowIsTheNinthBit := by
  unfold Obligations.BorrowIsTheNinthBit
  intro a b st
  have ha : uval a < 256 := a.isLt
  have hb : uval b < 256 := b.isLt
  have hdiff := uval_sub a b
  refine ⟨subOutputs a b, exec_sub a b st, ?_, fun p hp => ?_, ?_, ?_⟩
  · rw [subOutputs_c, decide_eq_true_iff]
    omega
  · rw [subOutputs_c, Bool.eq_iff_iff, decide_eq_true_iff]
    exact ninthBit_diffAt hp a b
  · rw [subOutputs_result, uval_not]
    omega
  · rw [subOutputs_c, uval_not]
    by_cases hborrow : uval a < uval b
    · rw [decide_eq_true hborrow, Bool.toNat_true]
      omega
    · rw [decide_eq_false hborrow, Bool.toNat_false]
      omega

section Zero
variable (a : Byte)

/-- Adding 0 carries and overflows nothing (spec/41_arithmetic.md R73). -/
theorem addOutputs_zero : addOutputs a 0x00#8 = (bitwiseBranch a).withCommonFlags := by
  have hcarry : ¬ 256 ≤ uval a + uval 0x00#8 := Nat.not_le.mpr a.isLt
  have hsval : sval a + sval 0x00#8 = sval a := Int.add_zero _
  rw [addOutputs, BitVec.add_zero, decide_eq_false hcarry, hsval, fitsSigned_sval, bitwiseBranch, Bool.not_true]

/-- Subtracting 0 borrows and overflows nothing (spec/41_arithmetic.md R73). -/
theorem subOutputs_zero : subOutputs a 0x00#8 = (bitwiseBranch a).withCommonFlags := by
  have hborrow : ¬ uval a < uval 0x00#8 := Nat.not_lt_zero _
  have hsval : sval a - sval 0x00#8 = sval a := Int.sub_zero _
  rw [subOutputs, BitVec.sub_zero, decide_eq_false hborrow, hsval, fitsSigned_sval, bitwiseBranch, Bool.not_true]

end Zero

/-- Settles O31: with the operand 0 both are the pass-through, and byte subtraction undoes byte addition. -/
theorem arithmeticIdentities : Obligations.ArithmeticIdentities := by
  unfold Obligations.ArithmeticIdentities
  intro a b st
  simp only [outputsOf_add, outputsOf_sub, addOutputs_zero, subOutputs_zero]
  exact ⟨rfl, rfl, rfl, rfl, rfl, rfl, BitVec.sub_self a, BitVec.add_sub_cancel a b⟩

/-- Settles O32: the fourteen rows are evaluated. -/
theorem arithmeticCornerTable : Obligations.ArithmeticCornerTable := by
  unfold Obligations.ArithmeticCornerTable
  intro st
  simp only [outputsOf_eq_branchOf]
  decide

/-- Zero after SUB is equality (spec/41_arithmetic.md R75). -/
theorem zeroFlag_sub_iff (a b : Byte) : zeroFlag (a - b) = true ↔ a = b := by
  rw [zeroFlag_eq_true_iff, BitVec.sub_eq_iff_eq_add, BitVec.zero_add]

/-- Negative and Overflow after SUB together are signed less-than (spec/41_arithmetic.md R75). -/
theorem negative_xor_overflow_sub_iff (a b : Byte) :
    ((a - b).getLsbD 7 ^^ !fitsSigned (sval a - sval b)) = true ↔ sval a < sval b := by
  have ha : uval a < 256 := a.isLt
  have hb : uval b < 256 := b.isLt
  have hdiff := uval_sub a b
  rw [Bool.xor_iff_ne, ne_eq, Bool.eq_iff_iff, not_fitsSigned_iff, signBit_eq_decide, decide_eq_true_iff, ← uval,
    sval_eq_ite, sval_eq_ite]
  split <;> split <;> omega

/-- Settles O33: `0x80 - 0x01` wraps to `0x7F`, so that Negative alone misses that `-128 < 1`. -/
theorem subtractCompares : Obligations.SubtractCompares := by
  unfold Obligations.SubtractCompares
  refine ⟨fun x y st => ⟨subOutputs x y, exec_sub x y st, zeroFlag_sub_iff x y, decide_eq_true_iff,
    negative_xor_overflow_sub_iff x y⟩, fun st => ⟨0x80#8, 0x01#8, by decide, ?_⟩⟩
  rw [outputsOf_sub]
  decide

end Sys2Proof
end

section
/-! PROOFS of spec/10_state.md section 3 and spec/70_reset_and_hazards.md. Every instruction's outputs are those of the
integer table, so a state whose outputs follow its inputs is settled; and every drive and every step ends in such a
state. -/

namespace Sys2Proof

open Sys2Proof.Machine Sys2Proof.Laws Sys2Proof.Safety

/-! ## The integer table -/

/-- Zero and Negative are computed from the result, so a branch has only to agree with the table in the other three. -/
theorem matchesTable_of_branch {i : Instr} {o : Outputs}
    (hresult : (uval o.result : Int) = tableResult i.operation i.operandA i.operandB)
    (hcarry : o.flags.c = tableCarry i.operation i.operandA i.operandB)
    (hoverflow : o.flags.v = tableOverflow i.operation i.operandA i.operandB) :
    MatchesTable i o.withCommonFlags where
  result := hresult
  zero := by
    rw [Outputs.withCommonFlags_z, Bool.eq_iff_iff, zeroFlag_iff, ← uval, ← hresult, decide_eq_true_iff,
      Int.natCast_eq_zero]
  carry := hcarry
  negative := by
    rw [Outputs.withCommonFlags_n, negativeFlag, signBit_eq_decide, ← uval, ← hresult, decide_eq_decide]
    omega
  overflow := hoverflow

/-- The left shift in integers (spec/43_shift.md R97). -/
theorem uval_shiftLeft (a : Byte) : uval (a <<< Config.SHAMT) = 2 * uval a % 256 := by
  rw [← lowByte_shiftedLeftAt (le_refl 9), uval_lowByte_shiftedLeftAt (le_refl 9)]

/-- The bit shifted out to the left in integers (spec/43_shift.md R97). -/
theorem signBit_eq_decide_double (a : Byte) : a.getLsbD 7 = decide (256 ≤ 2 * uval a) := by
  rw [signBit_eq_decide, ← uval, decide_eq_decide]
  omega

/-- The bit shifted out to the right in integers (spec/43_shift.md R97). -/
theorem lowBit_eq_decide (a : Byte) : a.getLsbD 0 = decide (uval a % 2 = 1) := by
  rw [getLsbD_eq_decide, Nat.pow_zero, Nat.div_one, uval]

theorem branchOf_matchesTable (i : Instr) : MatchesTable i (branchOf i).withCommonFlags := by
  cases i with
  | add a b =>
    rw [branchOf, addBranch_eq (le_refl 9)]
    exact matchesTable_of_branch (congrArg Nat.cast (uval_add a b)) rfl rfl
  | sub a b =>
    rw [branchOf, subBranch_eq (le_refl 9)]
    exact matchesTable_of_branch (uval_sub a b) rfl rfl
  | and a b => exact matchesTable_of_branch (congrArg Nat.cast (BitVec.toNat_and a b)) rfl rfl
  | or a b => exact matchesTable_of_branch (congrArg Nat.cast (BitVec.toNat_or a b)) rfl rfl
  | xor a b => exact matchesTable_of_branch (congrArg Nat.cast (BitVec.toNat_xor a b)) rfl rfl
  | sll a b =>
    rw [branchOf, sllBranch_eq (le_refl 9)]
    exact matchesTable_of_branch (congrArg Nat.cast (uval_shiftLeft a)) (signBit_eq_decide_double a) rfl
  | srl a b => exact matchesTable_of_branch (congrArg Nat.cast (uval_shiftRight a)) (lowBit_eq_decide a) rfl
  | rsv7 a b => exact matchesTable_of_branch rfl rfl rfl

/-- Settles O10: every instruction presents the common flags over its branch, and those are the table's. -/
theorem execRefinesIntegerTable : Obligations.ExecRefinesIntegerTable := by
  unfold Obligations.ExecRefinesIntegerTable
  exact fun i st => ⟨_, exec_eq_branchOf i st, branchOf_matchesTable i⟩

/-! ## Settled states -/

section Follow
variable (st : State) (o : Outputs) (v : InVec)

@[simp] theorem Machine.State.inputs_drive : (st.drive v).inputs = v := inVec_fields v

/-- The outputs that stood before play no part. -/
theorem follow_present : (st.present o).follow = st.follow := by
  rw [State.follow, State.follow, State.fetch_present, State.present_present, outputsOf_any_state _ _ st]

theorem follow_follow : st.follow.follow = st.follow := follow_present st _

theorem drive_present : (st.present o).drive v = st.drive v := follow_present (st.withInputs v) o

theorem settled_follow : Settled st.follow := by
  have hmatch := branchOf_matchesTable (fetch st)
  rw [← outputsOf_eq_branchOf _ st] at hmatch
  exact hmatch

theorem settled_drive : Settled (st.drive v) := settled_follow _

/-- A driven state has followed already. -/
theorem step_drive_eq : step (st.drive v) = .next (st.drive v) := by
  rw [step_eq_follow, State.drive, follow_follow]

/-- A step from any state ends settled. -/
theorem settled_of_step {t : State} (h : step st = .next t) : Settled t := by
  rw [step_eq_follow] at h
  injection h with h
  exact h ▸ settled_follow st

end Follow

/-- Settles O11: a step answers the state whose outputs follow its inputs, and such a state is settled. -/
theorem stepKeepsStatesSettled : Obligations.StepKeepsStatesSettled := by
  unfold Obligations.StepKeepsStatesSettled
  exact ⟨fun st _ _ hstep => settled_of_step st hstep,
    fun st v => ⟨st.drive v, step_drive_eq st v, settled_drive st v, st.inputs_drive v⟩⟩

/-- The reset outputs follow the reset inputs (spec/70_reset_and_hazards.md R116). -/
theorem reset_eq_follow : State.reset = State.reset.follow := by decide

/-- Settles O12: the reset state is one whose outputs follow its inputs. -/
theorem resetIsSettled : Obligations.ResetIsSettled := by
  unfold Obligations.ResetIsSettled
  rw [reset_eq_follow]
  exact settled_follow _

/-- Settles O13: both vectors are evaluated. -/
theorem resetPorts : Obligations.ResetPorts := by
  unfold Obligations.ResetPorts
  decide

/-- Settles O14: the vector decodes to `ADD 0x00, 0x00`, whose outputs are evaluated. -/
theorem allZeroInputsReportZero : Obligations.AllZeroInputsReportZero := by
  unfold Obligations.AllZeroInputsReportZero
  exact fun st => ⟨outputsOf (decode 0x00000#19) State.reset, step_drive st State.reset _, by decide⟩

/-! ## The step -/

/-- Settles O7: the step fetches what stands on the ports and adds nothing around `exec`. -/
theorem stepRunsTheDecodedInstruction : Obligations.StepRunsTheDecodedInstruction := by
  unfold Obligations.StepRunsTheDecodedInstruction
  rintro st i rfl
  rfl

/-- Settles O21: `exec_eq_branchOf` and `step_eq_follow` name the next state. -/
theorem noEvaluationStops : Obligations.NoEvaluationStops := by
  unfold Obligations.NoEvaluationStops
  refine ⟨fun i st => ?_, fun st => ⟨st.follow, step_eq_follow st⟩⟩
  rw [exec_eq_branchOf]
  exact ⟨fun _ => nofun, fun _ => nofun⟩

/-- A run of any machine goes on from the state its first step answers. -/
theorem run_succ_of_step {M : Host.Core} {s t : M.State} (k : Nat) (h : M.step s = .next t) :
    M.run (k + 1) s = M.run k t := by
  rw [Host.Core.run, h]

/-- The machine behind the host's interface stays where a step has brought it. -/
theorem run_follow (k : Nat) (st : State) : Sys2Proof.core.run k st.follow = .next st.follow := by
  have hstep : step st.follow = .next st.follow := by rw [step_eq_follow, follow_follow]
  induction k with
  | zero => rfl
  | succ k ih => exact (run_succ_of_step k hstep).trans ih

/-- Settles O46: the first step reaches the state whose outputs follow its inputs, and `run_follow` stays there. -/
theorem evaluatingAgainChangesNothing : Obligations.EvaluatingAgainChangesNothing := by
  unfold Obligations.EvaluatingAgainChangesNothing
  intro k st
  rw [step_eq_follow]
  exact (run_succ_of_step k (step_eq_follow st)).trans (run_follow k st)

/-! ## Driven outputs -/

/-- The outputs of a driven vector are those of the instruction it decodes to, whatever state they are computed in. -/
theorem drive_out_eq (st st' : State) (v : InVec) : (st.drive v).out = outputsOf (decode v) st' := by
  rw [State.drive_out, outputsOf_any_state _ _ st']
  exact congrArg (outputsOf · st') (st.fetch_drive v)

/-- The outputs of a driven vector are those of the pseudocode on its fields (spec/40_evaluation.md R55). -/
theorem drive_out_eq_evaluate (st : State) (v : InVec) :
    (st.drive v).out = evaluate (aField v) (bField v) (opField v) := by
  rw [drive_out_eq st st, outputsOf_eq_branchOf, evaluate_eq_branchOf, ← decode_inVec, inVec_fields]

theorem drive_inVec_out (st : State) (op : Selector) (a b : Byte) :
    (st.drive (inVec op a b)).out = evaluate a b op := by
  rw [drive_out_eq_evaluate, opField_inVec, aField_inVec, bField_inVec]

/-- Settles O47: a driven state keeps the driven vector, is settled, and holds nothing of the outputs before. -/
theorem outputsFollowTheInputs : Obligations.OutputsFollowTheInputs := by
  unfold Obligations.OutputsFollowTheInputs
  exact ⟨fun st v => ⟨st.inputs_drive v, settled_drive st v, step_drive_eq st v,
      fun before => drive_present st before v⟩,
    fun st op a b => ⟨drive_inVec_out st op _ _, drive_inVec_out st _ a _, drive_inVec_out st _ _ b⟩⟩

/-- A sequence of evaluations captures the pseudocode's outputs, vector by vector. -/
theorem evaluateSeq_eq_map (vs : List InVec) (st : State) :
    evaluateSeq vs st = vs.map fun v => evaluate (aField v) (bField v) (opField v) := by
  induction vs generalizing st with
  | nil => rfl
  | cons v vs ih => simp only [evaluateSeq, step_drive_eq, drive_out_eq_evaluate, ih, List.map_cons]

/-- Settles O45: what is captured is a map over the vectors, and a map commutes with permutations. -/
theorem evaluationsAreIndependent : Obligations.EvaluationsAreIndependent := by
  unfold Obligations.EvaluationsAreIndependent
  refine ⟨evaluateSeq_eq_map, fun vs ws st st' hperm => ?_⟩
  rw [evaluateSeq_eq_map, evaluateSeq_eq_map, ← List.map_prod_left_eq_zip, ← List.map_prod_left_eq_zip]
  exact hperm.map _

/-! ## Negative -/

/-- A byte with bit 7 set is not 0 (spec/40_evaluation.md R57). -/
theorem not_negative_and_zero (r : Byte) : ¬ (negativeFlag r = true ∧ zeroFlag r = true) := by
  rintro ⟨hn, hz⟩
  rw [(zeroFlag_eq_true_iff r).mp hz] at hn
  exact absurd hn (by decide)

/-- Settles O16: Negative is computed last, of the byte; the vacated and the moved bits of the shifts are known. -/
theorem negativeFlagIsBitSeven : Obligations.NegativeFlagIsBitSeven := by
  unfold Obligations.NegativeFlagIsBitSeven
  refine ⟨fun i st => ⟨_, exec_eq_branchOf i st, rfl, not_negative_and_zero _⟩, fun a b st => ?_⟩
  simp only [outputsOf_eq_branchOf, branchOf, sllBranch_eq (le_refl 9)]
  exact ⟨getLsbD_shiftRight_seven a, by decide, getLsbD_shiftLeft_succ a (by decide), by decide⟩

end Sys2Proof
end

section
/-! PROOFS of spec/30_encoding.md section 6. A request's number, the three bytes of a table word and the input vector
are one and the same 19 bits, and a table word that decodes at all decodes as the vector with its number. -/

namespace Sys2Proof

open Sys2Proof.Machine Sys2Proof.Laws

/-- Settles O1: the eight words are decoded. -/
theorem familyWordsDecode : Obligations.FamilyWordsDecode := by
  unfold Obligations.FamilyWordsDecode
  decide

/-- The output vector as a number (spec/30_encoding.md R47). -/
theorem Machine.Outputs.toNat_vec (o : Outputs) :
    o.vec.toNat = o.flags.v.toNat * 2048 + o.flags.n.toNat * 1024 + o.flags.c.toNat * 512 + o.flags.z.toNat * 256 +
      uval o.result := by
  rw [Outputs.vec, toNat_append_eq_add, toNat_append_eq_add, toNat_append_eq_add, toNat_append_eq_add,
    BitVec.toNat_ofBool, BitVec.toNat_ofBool, BitVec.toNat_ofBool, BitVec.toNat_ofBool, uval]
  omega

/-- Settles O6: each field stands at the weight of its lowest bit. -/
theorem vectorNotationsAsNumbers : Obligations.VectorNotationsAsNumbers := by
  unfold Obligations.VectorNotationsAsNumbers
  exact ⟨toNat_inVec, Outputs.toNat_vec⟩

/-! ## Table words -/

/-- The three bytes of a number, least significant first, hold its low 19 bits as the input vector does
(log entry 7). -/
theorem inVec_of_bytes (n : Nat) :
    inVec ((BitVec.ofNat 8 (n / 65536)).setWidth 3) (BitVec.ofNat 8 (n / 256)) (BitVec.ofNat 8 n) =
      BitVec.ofNat 19 n := by
  apply BitVec.eq_of_toNat_eq
  rw [toNat_inVec, uval, uval, BitVec.toNat_setWidth, BitVec.toNat_ofNat, BitVec.toNat_ofNat, BitVec.toNat_ofNat,
    BitVec.toNat_ofNat]
  omega

theorem tableWordBytes_of_le {nbits : Nat} (h : nbits ≤ 24) (w : Nat) :
    tableWordBytes nbits w =
      [BitVec.ofNat 8 (w % 2 ^ nbits), BitVec.ofNat 8 (w % 2 ^ nbits / 256),
        BitVec.ofNat 8 (w % 2 ^ nbits / 65536)] := by
  have hlen : max 3 ((nbits + 7) / 8) = 3 := by omega
  rw [tableWordBytes, hlen]
  simp [List.range_succ]

/-- A word of more than three bytes is no input vector. -/
theorem decodeBytes_of_length_ne {bs : List Byte} (h : bs.length ≠ 3) : decodeBytes bs = .error .notThreeBytes := by
  match bs, h with
  | [], _ | [_], _ | [_, _], _ | _ :: _ :: _ :: _ :: _, _ => rfl

theorem decodeTableWord_of_gt {nbits : Nat} (h : 24 < nbits) (w : Nat) : decodeTableWord nbits w = none := by
  have hlen : (tableWordBytes nbits w).length ≠ 3 := by
    rw [tableWordBytes, List.length_map, List.length_range]
    omega
  rw [decodeTableWord, decodeBytes_of_length_ne hlen]
  rfl

/-- A word of at most three bytes decodes as the vector with its number, where its top byte fits the selector. -/
theorem decodeTableWord_of_le {nbits : Nat} (h : nbits ≤ 24) (w : Nat) :
    decodeTableWord nbits w =
      if w % 2 ^ nbits / 65536 % 256 < 8 then some (decode (tableWordVec nbits w)) else none := by
  rw [decodeTableWord, tableWordBytes_of_le h, decodeBytes, inVec_of_bytes, BitVec.toNat_ofNat, tableWordVec]
  exact apply_ite Except.toOption ..

theorem decode_tableWordVec_of_decodeTableWord {nbits w : Nat} {i : Instr} (h : decodeTableWord nbits w = some i) :
    decode (tableWordVec nbits w) = i := by
  rcases Nat.lt_or_ge 24 nbits with hlong | hshort
  · rw [decodeTableWord_of_gt hlong] at h
    exact absurd h nofun
  · rw [decodeTableWord_of_le hshort] at h
    exact Option.some.inj (Option.ite_none_right_eq_some.mp h).2

/-- Settles O8: the driven vector stands on the ports, so a step fetches the instruction the table word was read as. -/
theorem drivenTableWordRunsNext : Obligations.DrivenTableWordRunsNext := by
  unfold Obligations.DrivenTableWordRunsNext
  intro nbits w i st hword
  obtain rfl := decode_tableWordVec_of_decodeTableWord hword
  refine ⟨st.fetch_drive _, ?_, fun st' => drive_out_eq st st' _⟩
  rw [step, State.withFetchWord, State.fetch_drive]

/-! ## Requests -/

theorem Request.wellFormed_iff (r : Request) : r.wellFormed = true ↔ r.op < 8 ∧ r.a < 256 ∧ r.b < 256 := by
  simp [Request.wellFormed, selectorFits, operandFits, Config.SELW, Config.WIDTH, and_assoc]

/-- The number of a request that fits its ports decodes to the operation of its code on its operands. -/
theorem decode_number {r : Request} (hop : r.op < 8) (ha : r.a < 256) (hb : r.b < 256) :
    decode (BitVec.ofNat 19 r.number) =
      Instr.ofOperation (operationOfWith Config.SEL (BitVec.ofNat 3 r.op))
        (BitVec.ofNat 8 r.a) (BitVec.ofNat 8 r.b) := by
  rw [← decode_ofNat, uval, uval, BitVec.toNat_ofNat, BitVec.toNat_ofNat, BitVec.toNat_ofNat, Nat.mod_eq_of_lt hop,
    Nat.mod_eq_of_lt ha, Nat.mod_eq_of_lt hb, Request.number]

/-- A request that fits its ports is a table word of three bytes. -/
theorem decodeTableWord_number {r : Request} (hop : r.op < 8) (ha : r.a < 256) (hb : r.b < 256) :
    decodeTableWord 24 r.number = some (decode (BitVec.ofNat 19 r.number)) := by
  have htop : r.number < 2 ^ 19 := by
    rw [Request.number]
    omega
  have hfits : r.number / 65536 % 256 < 8 := by omega
  rw [decodeTableWord_of_le (le_refl 24), tableWordVec, Nat.mod_eq_of_lt (by omega : r.number < 2 ^ 24), if_pos hfits]

/-- Settles O5: both decoders read the three fields back, and each number is its field's. -/
theorem requestNumberDecodesToItsFields : Obligations.RequestNumberDecodesToItsFields := by
  unfold Obligations.RequestNumberDecodesToItsFields
  intro r hr
  obtain ⟨hop, ha, hb⟩ := r.wellFormed_iff.mp hr
  refine ⟨_, rfl, decodeTableWord_number hop ha hb, ?_⟩
  rw [decode_number hop ha hb, Instr.operandA_ofOperation, Instr.operandB_ofOperation, Instr.operation_ofOperation]
  exact ⟨Nat.mod_eq_of_lt ha, Nat.mod_eq_of_lt hb, rfl⟩

end Sys2Proof
end

section
/-! PROOFS of spec/43_shift.md R94 and R97, spec/41_arithmetic.md R77 and spec/30_encoding.md section 8: shifts that
follow one another, a shift beside a doubling, and the operations a caller composes. -/

namespace Sys2Proof

open Sys2Proof.Machine Sys2Proof.Laws Sys2Proof.Safety

/-! ## Shifts that follow one another -/

section Shifts
variable (a b : Byte) (st : State)

theorem outputsOf_sll_result : (outputsOf (.sll a b) st).result = a <<< Config.SHAMT := by
  rw [outputsOf_eq_branchOf, branchOf, sllBranch_eq (le_refl 9), Outputs.withCommonFlags_result, Outputs.branch_result]

theorem outputsOf_srl_result : (outputsOf (.srl a b) st).result = a >>> Config.SHAMT := by
  rw [outputsOf_eq_branchOf, branchOf, srlBranch, Outputs.withCommonFlags_result, Outputs.branch_result]

/-- Left shifts add their distances up. -/
theorem iterate_sll_result (n : Nat) : (fun x => (outputsOf (.sll x b) st).result)^[n] a = a <<< n := by
  induction n with
  | zero => rw [Function.iterate_zero_apply, BitVec.shiftLeft_zero]
  | succ n ih => rw [Function.iterate_succ_apply', ih, outputsOf_sll_result, BitVec.shiftLeft_add]

/-- Right shifts add their distances up. -/
theorem iterate_srl_result (n : Nat) : (fun x => (outputsOf (.srl x b) st).result)^[n] a = a >>> n := by
  induction n with
  | zero => rw [Function.iterate_zero_apply, BitVec.ushiftRight_zero]
  | succ n ih => rw [Function.iterate_succ_apply', ih, outputsOf_srl_result, BitVec.shiftRight_add]

/-- SRL after SLL loses bit 7 (spec/43_shift.md R97). -/
theorem shiftRight_shiftLeft : a <<< Config.SHAMT >>> Config.SHAMT = a &&& 0x7F#8 := by
  apply BitVec.eq_of_toNat_eq
  have ha : uval a < 256 := a.isLt
  have hmask : (a &&& 0x7F#8).toNat = uval a % 128 := Nat.and_two_pow_sub_one_eq_mod _ 7
  rw [← uval, uval_shiftRight, uval_shiftLeft, hmask]
  omega

/-- SLL after SRL loses bit 0 (spec/43_shift.md R97). -/
theorem shiftLeft_shiftRight : a >>> Config.SHAMT <<< Config.SHAMT = a &&& 0xFE#8 := BitVec.shiftLeft_ushiftRight

end Shifts

/-- Settles O43: eight shifts by one are one shift by eight, which leaves nothing of a byte. -/
theorem eightShiftsClearAByte : Obligations.EightShiftsClearAByte := by
  unfold Obligations.EightShiftsClearAByte
  intro a b st
  rw [iterate_sll_result, iterate_srl_result]
  exact ⟨BitVec.shiftLeft_eq_zero (le_refl 8), BitVec.ushiftRight_eq_zero (le_refl 8)⟩

/-- What SLL presents, its result shifted in place. -/
theorem exec_sll (a b : Byte) (st : State) :
    exec (.sll a b) st =
      .next (st.present (Outputs.initial.branch (a <<< Config.SHAMT) (a.getLsbD 7) false).withCommonFlags) := by
  rw [exec_eq_branchOf, branchOf, sllBranch_eq (le_refl 9)]

/-- Settles O44: both shifts in integers, and the two compositions as masks. -/
theorem shiftsAsArithmetic : Obligations.ShiftsAsArithmetic := by
  unfold Obligations.ShiftsAsArithmetic
  intro a b st
  refine ⟨_, _, exec_sll a b st, execSrl_eq a st, uval_shiftLeft a, ?_, uval_shiftRight a, toNat_getLsbD_zero a, ?_, ?_⟩
  · exact (Bool.eq_iff_iff.mp (signBit_eq_decide_double a)).trans decide_eq_true_iff
  · rw [outputsOf_srl_result]
    exact shiftRight_shiftLeft a
  · rw [outputsOf_sll_result]
    exact shiftLeft_shiftRight a

/-! ## Doubling -/

/-- The sum of a byte with itself is its left shift (spec/41_arithmetic.md R77). -/
theorem add_self_eq_shiftLeft (a : Byte) : a + a = a <<< Config.SHAMT := by
  rw [← lowByte_sumAt (le_refl 9), sumAt_self_eq_shiftedLeftAt (le_refl 9), lowByte_shiftedLeftAt (le_refl 9)]

/-- Doubling overflows where bits 7 and 6 differ (spec/41_arithmetic.md R77). -/
theorem addOverflow_double (a : Byte) : addOverflow a a (a <<< Config.SHAMT) = (a.getLsbD 7 ^^ a.getLsbD 6) := by
  rw [Bool.eq_iff_iff, addOverflow_iff, and_iff_right rfl, Bool.xor_iff_ne, getLsbD_shiftLeft_succ a (by decide),
    ne_comm]

/-- What ADD presents on equal operands: all that SLL does, but for Overflow. -/
theorem exec_add_self (a : Byte) (st : State) :
    exec (.add a a) st = .next (st.present
      (Outputs.initial.branch (a <<< Config.SHAMT) (a.getLsbD 7) (a.getLsbD 7 ^^ a.getLsbD 6)).withCommonFlags) := by
  rw [exec_add, addOutputs, ← addOverflow_add, ← Nat.two_mul, ← signBit_eq_decide_double, add_self_eq_shiftLeft,
    addOverflow_double]

/-- Settles O34: the two evaluations present one branch, but for Overflow. -/
theorem doublingDiffersFromShiftInOverflow : Obligations.DoublingDiffersFromShiftInOverflow := by
  unfold Obligations.DoublingDiffersFromShiftInOverflow
  exact fun a b st => ⟨_, _, exec_add_self a st, exec_sll a b st, uval_shiftLeft a, rfl, rfl, rfl, rfl, rfl, rfl, rfl⟩

/-! ## Operations a caller composes -/

/-- Negation borrows from every value but 0 (spec/30_encoding.md R49). -/
theorem negation_borrows_iff (x : Byte) : uval 0x00#8 < uval x ↔ x ≠ 0x00#8 := by
  rw [ne_eq, eq_ofNat_iff_uval (by decide)]
  exact Nat.pos_iff_ne_zero

/-- Negation overflows at `-128` alone (spec/30_encoding.md R49). -/
theorem negation_overflows_iff (x : Byte) : (!fitsSigned (sval 0x00#8 - sval x)) = true ↔ x = 0x80#8 := by
  have hx : uval x < 256 := x.isLt
  rw [not_fitsSigned_iff, eq_ofNat_iff_uval (by decide), show sval 0x00#8 = 0 from rfl, sval_eq_ite]
  split <;> omega

/-- Settles O38: pass-through and zero are the branches of a word that is unchanged, and of 0. -/
theorem operationsACallerComposes : Obligations.OperationsACallerComposes := by
  unfold Obligations.OperationsACallerComposes
  intro x b st
  have hrsv7 : outputsOf (.rsv7 x b) st = Outputs.initial.withCommonFlags := outputsOf_eq_branchOf _ st
  simp only [outputsOf_xor, outputsOf_or, outputsOf_and, outputsOf_add, outputsOf_sub, hrsv7, addOutputs_zero,
    byte_ff_eq_allOnes, BitVec.xor_allOnes, BitVec.and_allOnes, BitVec.or_zero, BitVec.and_zero, BitVec.xor_self]
  exact ⟨⟨rfl, rfl, rfl⟩, ⟨BitVec.zero_sub x, decide_eq_true_iff.trans (negation_borrows_iff x),
      negation_overflows_iff x⟩,
    ⟨rfl, rfl, rfl, trivial, trivial⟩, ⟨rfl, trivial, rfl⟩, rfl, rfl⟩

end Sys2Proof
end
